-- ==== Sys2Proof/Word.lean ====
section
/-! DEFINITION. The word types of BCDI2C: bytes, command and response words, bus addresses (spec/00_scope.md R5). -/

namespace Sys2Proof

/-- A device register, a bus data byte, a BCD byte, a byte operand (R5, R6): bit 7 is the most significant. -/
abbrev Byte := BitVec 8

/-- A command word `cmd[79:0]` (R61). -/
abbrev CmdWord := BitVec 80

/-- A response word `rsp[31:0]` (R66). -/
abbrev RspWord := BitVec 32

/-- A result value, zero-extended to 16 bits (R66, D7). -/
abbrev Value := BitVec 16

/-- A 7-bit bus address (R12). -/
abbrev BusAddr := BitVec 7

/-- The code of a transport error: opaque, copied and never inspected (R151, D20). -/
abbrev TransportError := BitVec 8

end Sys2Proof
end

