-- ==== Sys2Proof/Machine/Transport.lean ====
section
/-! DEFINITION. The transport channel: the two request shapes, what the transport answers, one exchange (spec/20_memory.md R30, R31). -/

namespace Sys2Proof.Machine

/-- The two transport requests of R31. -/
inductive Request where
  /-- `TWrite(A, bytes)`: the first of `bytes` is the register pointer. -/
  | tWrite (addr : BusAddr) (bytes : List Byte)
  /-- `TWriteRead(A, [ptr], M)`: write the pointer, then read `m` bytes, with no stop in between (R37). -/
  | tWriteRead (addr : BusAddr) (ptr : Byte) (m : Nat)
  deriving DecidableEq, Repr

/-- What comes back for a request (R31): `Ok`, with the bytes read where the request reads, or `Fail(e)`;
or no answer at all, the hang of R188. -/
inductive Reply where
  | ok (data : List Byte)
  | fail (e : TransportError)
  | noAnswer
  deriving DecidableEq, Repr, Inhabited

/-- One request made, with what came back for it. -/
structure Exchange where
  request : Request
  reply   : Reply
  deriving DecidableEq, Repr

end Sys2Proof.Machine
end

