-- ==== Sys2Proof/Config.lean ====
section
/-! DEFINITION. The constants of the block, the register map, and the values the spec leaves open
(spec/00_scope.md R5, spec/10_state.md R12 to R14, spec/93_implementation_defined.md). An `opaque` here has no body:
nothing can be proved of its value, so a claim that mentions it holds whatever it is. -/

namespace Sys2Proof

/-- `DEVICE_ADDR`, hardwired (R12). -/
abbrev Config.deviceAddr : BusAddr := 0x68

/-- `REG_LO` and `REG_HI`, the range of the register map (R5, R13). -/
abbrev Config.regLo : Nat := 0x00
abbrev Config.regHi : Nat := 0x12

/-- The most data bytes of a WRBURST command (R5, R69, D13). -/
abbrev Config.maxBurst : Nat := 7

/-- `REGMAP`: the one-byte address of each of DOC00's thirteen names, in DOC00's order (R13, R14). -/
structure RegMap where
  second    : Byte
  minute    : Byte
  hour      : Byte
  day       : Byte
  date      : Byte
  month     : Byte
  year      : Byte
  alarm1    : Byte
  alarm2    : Byte
  control   : Byte
  status    : Byte
  tempUpper : Byte
  tempLower : Byte
  deriving DecidableEq, Repr

/-- The default of R14. PRESUMED (the spec's own general knowledge G1, D11); log entry 1; unsafe where a statement
uses the numbers: statements are made for every map a state holds. -/
def Config.regMapDefault : RegMap where
  second := 0x00
  minute := 0x01
  hour := 0x02
  day := 0x03
  date := 0x04
  month := 0x05
  year := 0x06
  alarm1 := 0x07
  alarm2 := 0x0B
  control := 0x0E
  status := 0x0F
  tempUpper := 0x11
  tempLower := 0x12

/-- `EncOOR` (R103, D8, U1, U2): the byte `decimalToBcd` gives outside 0 to 99. A free value that depends on the
operand alone; log entry 8; safe. -/
opaque Config.encOOR : Int → Byte

/-- The transport together with the device behind it (R30, U6): it sees the whole history of earlier exchanges and
the request, and answers anything, or nothing. A free value; log entry 9; safe. -/
opaque Config.oracle : List Machine.Exchange → Machine.Request → Machine.Reply

/-- The error a transport reports for a read that brought the wrong number of bytes: the spec says that this is
`Fail(e)` and gives no `e` (R31, R151). A free value; log entry 10; safe. -/
opaque Config.malformedError : List Machine.Exchange → Machine.Request → TransportError

/-- The byte that a register of RefDev, given by its address, holds after a write to it that failed, or after a request
for it that a reset abandoned: any value (R47, R181, U8, U14). A free value; log entry 11; safe. -/
opaque Config.lostByte : List Machine.Exchange → Nat → Byte

end Sys2Proof
end

