-- ==== Sys2Proof/Syntax.lean ====
section
/-! DEFINITION. The thirteen commands, one constructor per row of spec/opcode_table.json (spec/30_encoding.md R62, R64). -/

namespace Sys2Proof

/-- A command with its operands, in DOC00's order (R62, R63). -/
inductive Instr where
  /-- WRREG `reg`, `data` (R90). -/
  | wrreg (reg data : Byte)
  /-- RDREG `reg` (R91). -/
  | rdreg (reg : Byte)
  /-- WRBURST `reg`, `n`, `d0` .. `d(n-1)` (R92): `n` is the length of `data`, so that two words that differ only in
  the ignored bytes `d(n)` to `d6` are one command (R65). -/
  | wrburst (reg : Byte) (data : List Byte)
  /-- BCD2DEC `b` (R101). -/
  | bcd2dec (b : Byte)
  /-- DEC2BCD `v` (R102). -/
  | dec2bcd (v : Byte)
  /-- GETSEC (R121). -/
  | getsec
  /-- GETMIN (R122). -/
  | getmin
  /-- GETHOUR (R123). -/
  | gethour
  /-- GETDAY (R124). -/
  | getday
  /-- GETDATE (R125). -/
  | getdate
  /-- GETMONTH (R126). -/
  | getmonth
  /-- GETYEAR (R127). -/
  | getyear
  /-- SETDT `year`, `month`, `date`, `weekday`, `hour`, `minute`, `second` (R140). -/
  | setdt (year : BitVec 16) (month date weekday hour minute second : Byte)
  deriving DecidableEq, Repr

/-- The thirteen mnemonics of R64. -/
inductive Mnemonic where
  | wrreg | rdreg | wrburst | bcd2dec | dec2bcd
  | getsec | getmin | gethour | getday | getdate | getmonth | getyear
  | setdt
  deriving DecidableEq, Repr

/-- The five formats of R62. -/
inductive Format where
  | n | b | rb | bu | dt
  deriving DecidableEq, Repr

end Sys2Proof
end

