-- ==== Sys2Proof/WellFormed.lean ====
section
/-! DEFINITION. What a well-formed command and a well-formed register map are (spec/30_encoding.md R69, spec/10_state.md R13). -/

namespace Sys2Proof

/-- The one operand condition of R69: a WRBURST has 1 to 7 data bytes. Every other operand value is legal. -/
def Instr.wellFormed : Instr → Bool
  | .wrburst _ data => decide (1 ≤ data.length) && decide (data.length ≤ Config.maxBurst)
  | .wrreg _ _ | .rdreg _ | .bcd2dec _ | .dec2bcd _ => true
  | .getsec | .getmin | .gethour | .getday | .getdate | .getmonth | .getyear => true
  | .setdt _ _ _ _ _ _ _ => true

abbrev Instr.WellFormed (i : Instr) : Prop := i.wellFormed = true

/-- The addresses of a register map, in the order of DOC00's names. -/
def RegMap.addrs (m : RegMap) : List Byte :=
  [m.second, m.minute, m.hour, m.day, m.date, m.month, m.year, m.alarm1, m.alarm2, m.control, m.status,
   m.tempUpper, m.tempLower]

/-- What R13 fixes and R14 says a model must keep: every address lies in 0x00 to 0x12, and the seven time registers
are consecutive in the order second, minute, hour, day, date, month, year. -/
def RegMap.wellFormed (m : RegMap) : Bool :=
  m.addrs.all (fun a => decide (a.toNat ≤ Config.regHi)) &&
  decide (m.minute.toNat = m.second.toNat + 1) && decide (m.hour.toNat = m.second.toNat + 2) &&
  decide (m.day.toNat = m.second.toNat + 3) && decide (m.date.toNat = m.second.toNat + 4) &&
  decide (m.month.toNat = m.second.toNat + 5) && decide (m.year.toNat = m.second.toNat + 6)

abbrev RegMap.WellFormed (m : RegMap) : Prop := m.wellFormed = true

end Sys2Proof
end

