-- ==== Sys2Proof/Decode.lean ====
section
/-! DEFINITION. Decoding of an 80-bit command word, and the encoder (spec/30_encoding.md R61 to R71). -/

namespace Sys2Proof

/-- Why a word is no command (R68, R69): a bad `op`, or a WRBURST with `n` outside 1 to 7. -/
inductive Illegal where
  | opcode (op : Byte)
  | burstLength (n : Byte)
  deriving DecidableEq, Repr

/-- `op = cmd[79:72]` (R61). -/
def opField (w : CmdWord) : Byte := w.extractLsb 79 72

/-- The opcode map of R64. -/
def Mnemonic.opcode : Mnemonic → Byte
  | .wrreg    => 0x01
  | .rdreg    => 0x02
  | .wrburst  => 0x03
  | .bcd2dec  => 0x10
  | .dec2bcd  => 0x11
  | .getsec   => 0x20
  | .getmin   => 0x21
  | .gethour  => 0x22
  | .getday   => 0x23
  | .getdate  => 0x24
  | .getmonth => 0x25
  | .getyear  => 0x26
  | .setdt    => 0x30

/-- The rows of R64, in the table's order. -/
def Mnemonic.all : List Mnemonic :=
  [.wrreg, .rdreg, .wrburst, .bcd2dec, .dec2bcd, .getsec, .getmin, .gethour, .getday, .getdate, .getmonth,
   .getyear, .setdt]

/-- The row of an opcode, if it has one (R68: 243 have none). -/
def Mnemonic.ofOpcode (op : Byte) : Option Mnemonic := Mnemonic.all.find? (fun m => m.opcode == op)

/-- The format column of R64. -/
def Mnemonic.format : Mnemonic → Format
  | .wrreg => .rb
  | .rdreg | .bcd2dec | .dec2bcd => .b
  | .wrburst => .bu
  | .getsec | .getmin | .gethour | .getday | .getdate | .getmonth | .getyear => .n
  | .setdt => .dt

/-- The row a command belongs to. -/
def Instr.mnemonic : Instr → Mnemonic
  | .wrreg _ _ => .wrreg
  | .rdreg _ => .rdreg
  | .wrburst _ _ => .wrburst
  | .bcd2dec _ => .bcd2dec
  | .dec2bcd _ => .dec2bcd
  | .getsec => .getsec
  | .getmin => .getmin
  | .gethour => .gethour
  | .getday => .getday
  | .getdate => .getdate
  | .getmonth => .getmonth
  | .getyear => .getyear
  | .setdt _ _ _ _ _ _ _ => .setdt

/-- `d0` to `d6` of format BU (R62). -/
def burstSlots (w : CmdWord) : List Byte :=
  [w.extractLsb 55 48, w.extractLsb 47 40, w.extractLsb 39 32, w.extractLsb 31 24, w.extractLsb 23 16,
   w.extractLsb 15 8, w.extractLsb 7 0]

/-- `n` of format BU (R62). -/
def burstCount (w : CmdWord) : Byte := w.extractLsb 63 56

/-- Format BU (R62, R63, R69): `d0` to `d(n-1)` count, the rest is ignored; `n` outside 1 to 7 is illegal. -/
def decodeBurst (w : CmdWord) : Except Illegal Instr :=
  if 1 ≤ (burstCount w).toNat ∧ (burstCount w).toNat ≤ Config.maxBurst then
    .ok (.wrburst (w.extractLsb 71 64) ((burstSlots w).take (burstCount w).toNat))
  else .error (.burstLength (burstCount w))

/-- The decoder of R71: total on every 80-bit word, and it reads no state. -/
def decode (w : CmdWord) : Except Illegal Instr :=
  match Mnemonic.ofOpcode (opField w) with
  | none => .error (.opcode (opField w))
  | some .wrreg => .ok (.wrreg (w.extractLsb 71 64) (w.extractLsb 63 56))
  | some .rdreg => .ok (.rdreg (w.extractLsb 71 64))
  | some .wrburst => decodeBurst w
  | some .bcd2dec => .ok (.bcd2dec (w.extractLsb 71 64))
  | some .dec2bcd => .ok (.dec2bcd (w.extractLsb 71 64))
  | some .getsec => .ok .getsec
  | some .getmin => .ok .getmin
  | some .gethour => .ok .gethour
  | some .getday => .ok .getday
  | some .getdate => .ok .getdate
  | some .getmonth => .ok .getmonth
  | some .getyear => .ok .getyear
  | some .setdt =>
    .ok (.setdt (w.extractLsb 71 56) (w.extractLsb 55 48) (w.extractLsb 47 40) (w.extractLsb 39 32)
      (w.extractLsb 31 24) (w.extractLsb 23 16) (w.extractLsb 15 8))

/-- Format N (R62), ignored bits zero (R65). -/
def encodeN (op : Byte) : CmdWord := op ++ (0 : BitVec 72)

/-- Format B (R62), ignored bits zero (R65). -/
def encodeB (op a : Byte) : CmdWord := op ++ a ++ (0 : BitVec 64)

/-- Format RB (R62), ignored bits zero (R65). -/
def encodeRB (op reg data : Byte) : CmdWord := op ++ reg ++ data ++ (0 : BitVec 56)

/-- Format BU (R62): the bytes after the last data byte are zero (R65). -/
def encodeBU (op reg : Byte) (data : List Byte) : CmdWord :=
  op ++ reg ++ BitVec.ofNat 8 data.length ++ data.getD 0 0 ++ data.getD 1 0 ++ data.getD 2 0 ++ data.getD 3 0 ++
    data.getD 4 0 ++ data.getD 5 0 ++ data.getD 6 0

/-- Format DT (R62), ignored bits zero (R65). -/
def encodeDT (op : Byte) (year : BitVec 16) (month date weekday hour minute second : Byte) : CmdWord :=
  op ++ year ++ month ++ date ++ weekday ++ hour ++ minute ++ second ++ (0 : BitVec 8)

/-- The word of a well-formed command, as an assembler writes it (R62, R64, R65). -/
def encode : Instr → CmdWord
  | .wrreg reg data => encodeRB Mnemonic.wrreg.opcode reg data
  | .rdreg reg => encodeB Mnemonic.rdreg.opcode reg
  | .wrburst reg data => encodeBU Mnemonic.wrburst.opcode reg data
  | .bcd2dec b => encodeB Mnemonic.bcd2dec.opcode b
  | .dec2bcd v => encodeB Mnemonic.dec2bcd.opcode v
  | .getsec => encodeN Mnemonic.getsec.opcode
  | .getmin => encodeN Mnemonic.getmin.opcode
  | .gethour => encodeN Mnemonic.gethour.opcode
  | .getday => encodeN Mnemonic.getday.opcode
  | .getdate => encodeN Mnemonic.getdate.opcode
  | .getmonth => encodeN Mnemonic.getmonth.opcode
  | .getyear => encodeN Mnemonic.getyear.opcode
  | .setdt year month date weekday hour minute second =>
    encodeDT Mnemonic.setdt.opcode year month date weekday hour minute second

/-- How many bits of a command's word, from bit 79 down, take part in it (R62, R65); the rest is ignored. -/
def Instr.usedBits : Instr → Nat
  | .wrreg _ _ => 24
  | .rdreg _ | .bcd2dec _ | .dec2bcd _ => 16
  | .wrburst _ data => 24 + 8 * data.length
  | .getsec | .getmin | .gethour | .getday | .getdate | .getmonth | .getyear => 8
  | .setdt _ _ _ _ _ _ _ => 72

/-- A command word of the opcode table, as the number the table writes it: one 80-bit word, bit 0 its least
significant bit; bits at and above `nbits` are zero. -/
def tableWord (nbits w : Nat) : CmdWord := BitVec.ofNat 80 (w % 2 ^ nbits)

/-- The command the decoder reads from such a word. -/
def decodeTableWord (nbits w : Nat) : Option Instr :=
  match decode (tableWord nbits w) with
  | .ok i => some i
  | .error _ => none

end Sys2Proof
end

