-- ==== Sys2Proof/Machine/Bcd.lean ====
section
/-! DEFINITION. The BCD codec and the clamps (spec/00_scope.md R8, spec/41_bcd_codec.md R100 to R111,
spec/42_field_getters.md R121 to R127, spec/43_datetime_setter.md R140). -/

namespace Sys2Proof.Machine

/-- `b[7:4]`, the tens digit of a BCD byte (R22, R32). -/
def tensDigit (b : Byte) : BitVec 4 := b.extractLsb 7 4

/-- `b[3:0]`, the units digit of a BCD byte (R22, R32). -/
def unitsDigit (b : Byte) : BitVec 4 := b.extractLsb 3 0

/-- `Dec` (R100, R101): total, with no check that a nibble is at most 9. -/
def dec (b : Byte) : Nat := (tensDigit b).toNat * 10 + (unitsDigit b).toNat

/-- `Enc` (R100, R102, R110): the formula on 0 to 99, the free value `EncOOR` elsewhere (R103). -/
def enc (v : Int) : Byte :=
  if 0 ≤ v ∧ v ≤ 99 then BitVec.ofNat 8 (v.toNat / 10 * 16 + v.toNat % 10) else Config.encOOR v

/-- A valid BCD byte: each nibble is 0 to 9 (spec/00_scope.md, glossary). -/
def validBcd (b : Byte) : Bool := decide ((tensDigit b).toNat ≤ 9) && decide ((unitsDigit b).toNat ≤ 9)

/-- `clamp(v, lo, hi)` (R8; PRESUMED by the spec itself, G2; log entry 14). -/
def clamp (v lo hi : Nat) : Nat := max lo (min v hi)

/-- The clamp functions `F` of the getters (R121 to R127); the asymmetries are the spec's (R130). -/
def clampSecond (d : Nat) : Nat := min d 59
def clampMinute (d : Nat) : Nat := min d 59
def clampHour (d : Nat) : Nat := min d 23
def clampDay (d : Nat) : Nat := clamp d 1 7
def clampDate (d : Nat) : Nat := clamp d 1 31
def clampMonth (d : Nat) : Nat := clamp d 1 12
def clampYear (d : Nat) : Nat := min d 99 + 2000

/-- `year - 2000` as a mathematical integer, never cut to a byte (R140, D9). -/
def yearOffset (year : BitVec 16) : Int := (year.toNat : Int) - 2000

/-- `zext_16` of a byte (R7, R66). -/
def zext16 (b : Byte) : Value := b.zeroExtend 16

/-- A number returned as a value (R66): every one a rule returns fits 16 bits (R67, R104). -/
def natValue (n : Nat) : Value := BitVec.ofNat 16 n

end Sys2Proof.Machine
end

