-- ==== Sys2Proof/Machine/State.lean ====
section
/-! DEFINITION. The state of the block, of its host and of its transport and device, as plain data; why a step can
stop; the state after reset (spec/10_state.md, spec/20_memory.md, spec/60_exceptions.md, spec/70_reset_and_hazards.md). -/

namespace Sys2Proof.Machine

/-- The two exceptions a command can end with, and no other (R150, R152, R153). -/
inductive Failure where
  /-- The transport answered `Fail(e)` (R150). -/
  | transportFailure (e : TransportError)
  /-- The word is no command (R152). -/
  | illegalCommand
  deriving DecidableEq, Repr

/-- A command whose transport request has not been answered (R21, R188). -/
structure InFlight where
  instr   : Instr
  request : Request
  deriving DecidableEq, Repr

/-- What stands behind the transport (R30, R46). -/
inductive Device where
  /-- The DS3231, which the spec does not describe (R18, R30): every answer is a free value. -/
  | chip
  /-- `RefDev`, the spec's reference device (R46): a plain byte array over 0x00 to 0x12. -/
  | refDev
  deriving DecidableEq, Repr

/-- A byte memory as (address, byte) pairs: addresses strictly rising, no entry equal to what an unlisted address
reads as (`Memory.wf`, Machine/Ops.lean). -/
abbrev Memory := List Host.Cell

/-- Why a run stops. -/
inductive Fault where
  /-- Raised by `step` after a command was answered `FAIL` or `ILLEGAL`: the host's run is over, "ends there as a
  fault" (R160, R195). Safe: a host that goes on after a failure is left out (D15). -/
  | runFailed (f : Failure)
  /-- Raised by `step` while a request is unanswered and no reset is asked for: the block has no step (R164, R188).
  Safe: the machine is stuck, as the real one is. -/
  | transportSilent
  deriving DecidableEq, Repr

/-- Why an instruction has no meaning in a state. -/
inductive Refusal where
  /-- Raised by an arm of `exec` whose instruction has no meaning yet; no arm is so. Safe. -/
  | notModelled (mnemonic : String)
  /-- Raised by a bus command under RefDev whose request leaves 0x00 to 0x12: such a request "has no meaning under
  RefDev" (R46, U9). Safe. Never raised with the chip behind the transport. -/
  | outsideRefDev
  deriving DecidableEq, Repr

/-- The machine. -/
structure State where
  /-- The command in progress, between its acceptance and its response (R21): `none` is idle. -/
  inProgress : Option InFlight
  /-- `REGMAP` (R13, R14): written by nothing. -/
  regMap     : RegMap
  /-- The host's program `P` (R11). -/
  program    : List CmdWord
  /-- The host's sequence index `seq` (R11). -/
  seq        : Nat
  /-- The exception that ended the host's run, if one has (R160). -/
  stopped    : Option Failure
  /-- The response channel (R60, R66): every response given, newest first. The block keeps none of them (R25). -/
  responses  : List RspWord
  /-- The model's own input: a reset of the block is asked for (R180, R181); the next step takes it. -/
  resetLine  : Bool
  /-- The transport channel (R30, R60): every request made and what came back, newest first. -/
  history    : List Exchange
  /-- The model's own input: answers fixed beforehand for the coming requests, one entry a request; `none`, or no
  entry, leaves the request to the device (R30, R46). -/
  script     : List (Option Reply)
  /-- The device behind the transport (R30, R46). -/
  device     : Device
  /-- RefDev's contents (R46). With the chip behind the transport nothing reads or writes it (R18). -/
  mem        : Memory
  deriving DecidableEq, Repr

/-- After reset, at the start of a program (R24, R180): idle, nothing outstanding, `seq` 0. The fields the spec gives
no value (program, responses, script, device, mem, resetLine) are the model's choice, log entries 2 to 7; the register
map is the spec's default, log entry 1. -/
def State.reset : State where
  inProgress := none
  regMap := Config.regMapDefault
  program := []
  seq := 0
  stopped := none
  responses := []
  resetLine := false
  history := []
  script := []
  device := .chip
  mem := []

end Sys2Proof.Machine
end

