-- ==== Sys2Proof/Machine/Response.lean ====
section
/-! DEFINITION. The 32-bit response word (spec/30_encoding.md R66, spec/60_exceptions.md R150, R152, R156). The block
has no flags (R25), so there is no flag computation: the status byte of a response is all a command reports. -/

namespace Sys2Proof.Machine

/-- `status`, `err`, `value`, in that order from bit 31 down (R66). -/
def rspWord (status err : Byte) (value : Value) : RspWord := status ++ err ++ value

def rspStatus (r : RspWord) : Byte := r.extractLsb 31 24
def rspErr (r : RspWord) : Byte := r.extractLsb 23 16
def rspValue (r : RspWord) : Value := r.extractLsb 15 0

/-- The three status codes of R66. -/
abbrev statusOk : Byte := 0x00
abbrev statusFail : Byte := 0x01
abbrev statusIllegal : Byte := 0x02

/-- Status `OK` with a result (R66). -/
def rspOk (value : Value) : RspWord := rspWord statusOk 0 value

/-- The response of a command that ends in an exception: `FAIL` with the transport's code unmodified (R150, R151), or
`ILLEGAL` (R152); no value. -/
def Failure.response : Failure → RspWord
  | .transportFailure e => rspWord statusFail e 0
  | .illegalCommand => rspWord statusIllegal 0 0

end Sys2Proof.Machine
end

