-- ==== Sys2Proof/Machine/Ops.lean ====
section
/-! DEFINITION. The named operations over the state: RefDev's memory, the transport port, giving a response, taking an
exception, reset of the block, and the host's side (spec/20_memory.md, spec/60_exceptions.md, spec/70_reset_and_hazards.md). -/

namespace Sys2Proof.Machine

/-- What an unlisted address reads as. DESIGN CHOICE: the start `dev(a) = 0x00` of the spec's test vectors; log entry 7;
unsafe where a statement rests on it: none does. -/
def Memory.unlisted : Byte := 0x00

/-- The byte at an address. -/
def Memory.read : Memory → Nat → Byte
  | [], _ => Memory.unlisted
  | (k, v) :: m, a => if k = a then v else Memory.read m a

/-- `dev(a) <- v`, keeping the canonical form. -/
def Memory.write : Memory → Nat → Byte → Memory
  | [], a, v => if v = Memory.unlisted then [] else [(a, v)]
  | (k, w) :: m, a, v =>
    if a < k then (if v = Memory.unlisted then (k, w) :: m else (a, v) :: (k, w) :: m)
    else if a = k then (if v = Memory.unlisted then m else (a, v) :: m)
    else (k, w) :: Memory.write m a v

/-- `dev(a + i) <- d_i` for `i` from 0, in that order (R36, R46). -/
def Memory.writeBytes (m : Memory) (a : Nat) : List Byte → Memory
  | [] => m
  | d :: ds => Memory.writeBytes (Memory.write m a d) (a + 1) ds

/-- The canonical form from address `lo` up. -/
def Memory.wfFrom : Nat → Memory → Bool
  | _, [] => true
  | lo, (k, v) :: m => decide (lo ≤ k) && decide (v ≠ Memory.unlisted) && Memory.wfFrom (k + 1) m

/-- The canonical form: addresses strictly rising, no entry equal to what an unlisted address reads as. -/
def Memory.wf (m : Memory) : Bool := Memory.wfFrom 0 m

/-- RefDev has registers at 0x00 to 0x12 only (R46). -/
def Memory.mapped (m : Memory) : Bool := m.all (fun c => decide (c.1 ≤ Config.regHi))

/-- `MemRead(reg, 1)` (R7, R31). -/
def memRead (reg : Byte) : Request := .tWriteRead Config.deviceAddr reg 1

/-- `MemWrite(reg, n, data)` (R7, R31): the register pointer, then the data bytes, one request. -/
def memWrite (reg : Byte) (data : List Byte) : Request := .tWrite Config.deviceAddr (reg :: data)

/-- Whether a request has a meaning under RefDev (R46): bus address 0x68, every register in 0x00 to 0x12. -/
def RefDev.accepts : Request → Bool
  | .tWriteRead addr ptr m =>
    decide (addr = Config.deviceAddr) && decide (m = 1) && decide (ptr.toNat ≤ Config.regHi)
  | .tWrite addr (ptr :: d :: ds) =>
    decide (addr = Config.deviceAddr) && decide (ptr.toNat + (d :: ds).length ≤ Config.regHi + 1)
  | .tWrite _ _ => false

/-- RefDev's answer (R46): the byte at the pointer, or `Ok`; RefDev never fails by itself. -/
def RefDev.reply (mem : Memory) : Request → Reply
  | .tWriteRead _ ptr _ => .ok [Memory.read mem ptr.toNat]
  | .tWrite _ _ => .ok []

/-- The contents after a write was delivered whole, in order, as one step (R36, R37, R46). -/
def RefDev.store (mem : Memory) : Request → Memory
  | .tWrite _ (ptr :: data) => Memory.writeBytes mem ptr.toNat data
  | .tWrite _ [] => mem
  | .tWriteRead _ _ _ => mem

/-- Free bytes for `n` registers from address `a`. -/
def lostBytes (h : List Exchange) (a : Nat) : Nat → List Byte
  | 0 => []
  | n + 1 => Config.lostByte h a :: lostBytes h (a + 1) n

/-- The contents after a request that failed. A write: each addressed register holds any value (R47). A read leaves RefDev
as it was: DEDUCED from spec/95_test_vectors.md B8, log entry 22. -/
def RefDev.lose (h : List Exchange) (mem : Memory) : Request → Memory
  | .tWrite _ (ptr :: data) => Memory.writeBytes mem ptr.toNat (lostBytes h ptr.toNat data.length)
  | .tWrite _ [] => mem
  | .tWriteRead _ _ _ => mem

/-- The contents after a request that a reset abandoned: each register it addressed, to write or to read it, holds any
value (R181, U14). -/
def RefDev.abandon (h : List Exchange) (mem : Memory) : Request → Memory
  | .tWrite addr bytes => RefDev.lose h mem (.tWrite addr bytes)
  | .tWriteRead _ ptr m => Memory.writeBytes mem ptr.toNat (lostBytes h ptr.toNat m)

/-- The shape R31 gives the results: a write's `Ok` carries no data, and a read that brought the wrong number of bytes
is `Fail(e)`. -/
def Reply.forRequest (h : List Exchange) (q : Request) : Reply → Reply
  | .ok data =>
    match q with
    | .tWrite _ _ => .ok []
    | .tWriteRead _ _ m => if data.length = m then .ok data else .fail (Config.malformedError h q)
  | .fail e => .fail e
  | .noAnswer => .noAnswer

/-- Who answers a request: the script if it has an entry for it, else the device (R30, R46). -/
def State.rawReply (s : State) (q : Request) : Reply :=
  match s.script with
  | some r :: _ => r
  | _ =>
    match s.device with
    | .chip => Config.oracle s.history q
    | .refDev => RefDev.reply s.mem q

/-- The result the transport hands the block for a request made in state `s` (R30, R31). -/
def State.replyTo (s : State) (q : Request) : Reply := Reply.forRequest s.history q (s.rawReply q)

/-- Whether a request can be made: always, to the chip (R34); within its map, to RefDev (R46). -/
def State.sendable (s : State) (q : Request) : Bool :=
  match s.device with
  | .chip => true
  | .refDev => RefDev.accepts q

/-- Whether RefDev stands behind the transport and the request is one for it. -/
def State.onRefDev (s : State) (q : Request) : Bool :=
  match s.device with
  | .chip => false
  | .refDev => RefDev.accepts q

/-- A request has been made and `r` came back: the exchange joins the history and uses up its entry of the script. -/
def State.exchanged (s : State) (q : Request) (r : Reply) : State :=
  { s with history := ⟨q, r⟩ :: s.history, script := s.script.tail }

/-- RefDev's registers after a request that was answered `Ok` (R36, R46). -/
def State.stored (s : State) (q : Request) : State :=
  { s with mem := if s.onRefDev q then RefDev.store s.mem q else s.mem }

/-- RefDev's registers after a request that failed (R47). -/
def State.lost (s : State) (q : Request) : State :=
  { s with mem := if s.onRefDev q then RefDev.lose s.history s.mem q else s.mem }

/-- RefDev's registers after a request that a reset abandoned (R181). -/
def State.abandoned (s : State) (q : Request) : State :=
  { s with mem := if s.onRefDev q then RefDev.abandon s.history s.mem q else s.mem }

/-- `return v` (R7): the response is `OK` with value `v`; the host counts the command (R11). -/
def State.respond (s : State) (v : Value) : State :=
  { s with responses := rspOk v :: s.responses, seq := s.seq + 1 }

/-- TAKING AN EXCEPTION, `raise TransportFailure(e)` or `raise IllegalCommand` (R7, R150, R152, R156): the response word
and nothing more; no state is saved, and the block is idle again. The host's run ends; `seq` keeps the index of the
command that failed (R11, R160). There is no return from an exception (R159). -/
def State.raise (s : State) (f : Failure) : State :=
  { s with responses := f.response :: s.responses, stopped := some f }

/-- The request is unanswered: the command stays in progress and no response is given (R164, R188). -/
def State.hold (s : State) (i : Instr) (q : Request) : State := { s with inProgress := some ⟨i, q⟩ }

/-- The end of a bus command, by the transport's answer (R90 to R93, R120, R140, R150, R188). -/
def State.concluded (s : State) (i : Instr) (q : Request) (k : List Byte → Value) : Reply → State
  | .ok data => ((s.exchanged q (.ok data)).stored q).respond (k data)
  | .fail e => ((s.exchanged q (.fail e)).lost q).raise (.transportFailure e)
  | .noAnswer => (s.exchanged q .noAnswer).hold i q

/-- A bus command `i`: its one transport request `q`, made once and never retried, then the response, whose value is
`k` of the data (R93, R158). -/
def State.transact (s : State) (i : Instr) (q : Request) (k : List Byte → Value) :
    Host.Outcome State Fault Refusal :=
  if s.sendable q then .next (s.concluded i q k (s.replyTo q)) else .refused .outsideRefDev

/-- Reset of the block (R180, R181): idle afterwards; no request is made and no response given; a command in progress is
abandoned, and the registers its request addressed hold any value. The host's side is not the block's and stays (log entry 13). -/
def State.resetBlock (s : State) : State :=
  { s with
    inProgress := none
    resetLine := false
    mem := match s.inProgress with
      | none => s.mem
      | some c => (s.abandoned c.request).mem }

/-- The word the host presents, `P[seq]`; none once the program is at its end (R11). -/
def State.presented (s : State) : Option CmdWord := s.program[s.seq]?

/-- A word that is no command (R152): nothing happens but the response. -/
def State.rejectWord (s : State) : State := s.raise .illegalCommand

/-- A program with the word at an index replaced, or put there after zero words. -/
def placeWord : List CmdWord → Nat → CmdWord → List CmdWord
  | [], 0, w => [w]
  | _ :: p, 0, w => w :: p
  | [], n + 1, w => 0 :: placeWord [] n w
  | x :: p, n + 1, w => x :: placeWord p n w

end Sys2Proof.Machine
end

