-- ==== Sys2Proof/Machine/Operands.lean ====
section
/-! DEFINITION. The operand forms: every operand is an immediate of the command word (spec/10_state.md R10,
spec/30_encoding.md R63); the register of a getter is a constant of the register map (R14). -/

namespace Sys2Proof.Machine

/-- `Ok([b])` read as `Ok(b)` (R31): the one byte a read brought. -/
def readByte (data : List Byte) : Byte := data.headD 0

/-- The value of a command with "No return value" (R66). -/
def noValue (_ : List Byte) : Value := 0

/-- A byte operand of DEC2BCD or SETDT as the integer `Enc` takes (R63, R100). -/
def byteInt (b : Byte) : Int := (b.toNat : Int)

/-- The seven data bytes of SETDT's burst, in bus order: second, minute, hour, weekday, date, month, year offset (R140). -/
def setdtBytes (year : BitVec 16) (month date weekday hour minute second : Byte) : List Byte :=
  [enc (byteInt second), enc (byteInt minute), enc (byteInt hour), enc (byteInt weekday), enc (byteInt date),
   enc (byteInt month), enc (yearOffset year)]

end Sys2Proof.Machine
end

