-- ==== Sys2Proof/Machine/Bus.lean ====
section
/-! DEFINITION. The bus primitives WRREG, RDREG, WRBURST (spec/40_bus_primitives.md R90 to R93). -/

namespace Sys2Proof.Machine

/-- WRREG (R90): `TWrite(0x68, [reg, data])`, nothing checked, value 0. -/
def execWrreg (reg data : Byte) (s : State) : Host.Outcome State Fault Refusal :=
  s.transact (.wrreg reg data) (memWrite reg [data]) noValue

/-- RDREG (R91): `TWriteRead(0x68, [reg], 1)`; the byte is returned as it came. -/
def execRdreg (reg : Byte) (s : State) : Host.Outcome State Fault Refusal :=
  s.transact (.rdreg reg) (memRead reg) (fun data => zext16 (readByte data))

/-- WRBURST (R92): the length is checked first (R69, R155), then one request with all the bytes. -/
def execWrburst (reg : Byte) (data : List Byte) (s : State) : Host.Outcome State Fault Refusal :=
  if 1 ≤ data.length ∧ data.length ≤ Config.maxBurst then
    s.transact (.wrburst reg data) (memWrite reg data) noValue
  else .next (s.raise .illegalCommand)

end Sys2Proof.Machine
end

