-- ==== Sys2Proof/Machine/Codec.lean ====
section
/-! DEFINITION. The codec commands BCD2DEC and DEC2BCD (spec/41_bcd_codec.md R101 to R103): no request, no failure. -/

namespace Sys2Proof.Machine

/-- BCD2DEC (R101). -/
def execBcd2dec (b : Byte) (s : State) : Host.Outcome State Fault Refusal :=
  .next (s.respond (natValue (dec b)))

/-- DEC2BCD (R102, R103): status `OK` for every operand. -/
def execDec2bcd (v : Byte) (s : State) : Host.Outcome State Fault Refusal :=
  .next (s.respond (zext16 (enc (byteInt v))))

end Sys2Proof.Machine
end

