-- ==== Sys2Proof/Machine/Getters.lean ====
section
/-! DEFINITION. The seven field getters (spec/42_field_getters.md R120 to R130): one read, decode, clamp. No bit of the
byte is masked (R129). -/

namespace Sys2Proof.Machine

/-- The common scheme of R120: read register `reg`, decode the whole byte, clamp with `clampFn`. -/
def State.getField (s : State) (i : Instr) (reg : Byte) (clampFn : Nat → Nat) : Host.Outcome State Fault Refusal :=
  s.transact i (memRead reg) (fun data => natValue (clampFn (dec (readByte data))))

/-- GETSEC (R121). -/
def execGetsec (s : State) : Host.Outcome State Fault Refusal :=
  s.getField .getsec s.regMap.second clampSecond

/-- GETMIN (R122). -/
def execGetmin (s : State) : Host.Outcome State Fault Refusal :=
  s.getField .getmin s.regMap.minute clampMinute

/-- GETHOUR (R123). -/
def execGethour (s : State) : Host.Outcome State Fault Refusal :=
  s.getField .gethour s.regMap.hour clampHour

/-- GETDAY (R124). -/
def execGetday (s : State) : Host.Outcome State Fault Refusal :=
  s.getField .getday s.regMap.day clampDay

/-- GETDATE (R125). -/
def execGetdate (s : State) : Host.Outcome State Fault Refusal :=
  s.getField .getdate s.regMap.date clampDate

/-- GETMONTH (R126). -/
def execGetmonth (s : State) : Host.Outcome State Fault Refusal :=
  s.getField .getmonth s.regMap.month clampMonth

/-- GETYEAR (R127). -/
def execGetyear (s : State) : Host.Outcome State Fault Refusal :=
  s.getField .getyear s.regMap.year clampYear

end Sys2Proof.Machine
end

