-- ==== Sys2Proof/Machine/Setter.lean ====
section
/-! DEFINITION. The date-time setter SETDT (spec/43_datetime_setter.md R140 to R143): one burst, nothing checked. -/

namespace Sys2Proof.Machine

/-- SETDT (R140, R141): one request of eight bytes, the pointer `REG_SECOND` and seven data bytes. -/
def execSetdt (year : BitVec 16) (month date weekday hour minute second : Byte) (s : State) :
    Host.Outcome State Fault Refusal :=
  s.transact (.setdt year month date weekday hour minute second)
    (memWrite s.regMap.second (setdtBytes year month date weekday hour minute second)) noValue

end Sys2Proof.Machine
end

