-- ==== Sys2Proof/Machine/Dispatch.lean ====
section
/-! DEFINITION. exec: one arm per constructor of Instr, each one direct call of that command's meaning. -/

namespace Sys2Proof.Machine

def exec (i : Instr) (s : State) : Host.Outcome State Fault Refusal :=
  match i with
  | .wrreg reg data => Sys2Proof.Machine.execWrreg reg data s
  | .rdreg reg => Sys2Proof.Machine.execRdreg reg s
  | .wrburst reg data => Sys2Proof.Machine.execWrburst reg data s
  | .bcd2dec b => Sys2Proof.Machine.execBcd2dec b s
  | .dec2bcd v => Sys2Proof.Machine.execDec2bcd v s
  | .getsec => Sys2Proof.Machine.execGetsec s
  | .getmin => Sys2Proof.Machine.execGetmin s
  | .gethour => Sys2Proof.Machine.execGethour s
  | .getday => Sys2Proof.Machine.execGetday s
  | .getdate => Sys2Proof.Machine.execGetdate s
  | .getmonth => Sys2Proof.Machine.execGetmonth s
  | .getyear => Sys2Proof.Machine.execGetyear s
  | .setdt year month date weekday hour minute second => Sys2Proof.Machine.execSetdt year month date weekday hour minute second s

end Sys2Proof.Machine
end

