-- ==== Sys2Proof/Machine/Step.lean ====
section
/-! DEFINITION. One step: the host presents its next word, the block runs that one command to its response
(spec/10_state.md R11, spec/30_encoding.md R60, spec/70_reset_and_hazards.md R180, R181, R188, R195). -/

namespace Sys2Proof.Machine

/-- A reset asked for is taken first (R181). A block with an unanswered request has no step (R188), nor has a host
whose run ended as a fault (R160). At the end of the program nothing is presented and nothing changes (R195). -/
def step (s : State) : Host.Outcome State Fault Refusal :=
  if s.resetLine then .next s.resetBlock
  else
    match s.inProgress with
    | some _ => .fault .transportSilent
    | none =>
      match s.stopped with
      | some f => .fault (.runFailed f)
      | none =>
        match s.presented with
        | none => .next s
        | some w =>
          match decode w with
          | .error _ => .next s.rejectWord
          | .ok i => exec i s

/-- `s` with a word of the opcode table as the next one the host presents, to a block that is idle and a host whose run
has not ended (log entry 2: a program is loaded from outside). -/
def State.withFetchWord (s : State) (nbits w : Nat) : State :=
  { s with
    program := placeWord s.program s.seq (tableWord nbits w)
    inProgress := none
    stopped := none
    resetLine := false }

end Sys2Proof.Machine
end

