-- ==== Sys2Proof/Machine/Assembler.lean ====
section
/-! DEFINITION. The textual form of commands, DOC00's own names, and the host's variables, as a layer above the command
words (spec/30_encoding.md R72, R73, spec/10_state.md R10). The machine does not use it: a program is a list of words (R11). -/

namespace Sys2Proof.Machine

/-- The mnemonic in capitals (R64, R72). -/
def Mnemonic.text : Mnemonic → String
  | .wrreg => "WRREG"
  | .rdreg => "RDREG"
  | .wrburst => "WRBURST"
  | .bcd2dec => "BCD2DEC"
  | .dec2bcd => "DEC2BCD"
  | .getsec => "GETSEC"
  | .getmin => "GETMIN"
  | .gethour => "GETHOUR"
  | .getday => "GETDAY"
  | .getdate => "GETDATE"
  | .getmonth => "GETMONTH"
  | .getyear => "GETYEAR"
  | .setdt => "SETDT"

/-- DOC00's names of the operation (R73); the buffer write has none there. -/
def Mnemonic.doc00Names : Mnemonic → List String
  | .wrreg => ["writeRegister"]
  | .rdreg => ["readRegister"]
  | .wrburst => []
  | .bcd2dec => ["bcdToDecimal"]
  | .dec2bcd => ["decimalToBcd"]
  | .getsec => ["second"]
  | .getmin => ["minute"]
  | .gethour => ["hour"]
  | .getday => ["day"]
  | .getdate => ["date"]
  | .getmonth => ["month"]
  | .getyear => ["year"]
  | .setdt => ["dateTime", "setDateTime"]

/-- What a name at the head of a line stands for: a mnemonic in capitals (R72), or one of DOC00's names as an alias of it
(R73). -/
def Mnemonic.ofName (name : String) : Option Mnemonic :=
  Mnemonic.all.find? (fun m => name == Mnemonic.text m || (Mnemonic.doc00Names m).contains name)

/-- DOC00's public surface, the seven getters and the setter (R73). The block has no such split: every row is a command,
DOC00's private parts included, and no step reads this. -/
def Mnemonic.isPublic : Mnemonic → Bool
  | .wrreg | .rdreg | .wrburst | .bcd2dec | .dec2bcd => false
  | .getsec | .getmin | .gethour | .getday | .getdate | .getmonth | .getyear | .setdt => true

/-- An operand as written (R72): a numeral, or a host variable with a numeral added or subtracted. -/
inductive AsmOperand where
  | num (n : Nat)
  | var (name : String) (offset : Int)
  deriving DecidableEq, Repr

/-- One line: `name <- CMD ...`, or `CMD ...` (R72). -/
structure AsmLine where
  bind     : Option String
  command  : Mnemonic
  operands : List AsmOperand
  deriving DecidableEq, Repr

/-- A line whose command is given by its mnemonic or by DOC00's name; the operands are in one order for both (R72, R73). -/
def AsmLine.named (bind : Option String) (name : String) (operands : List AsmOperand) : Option AsmLine :=
  (Mnemonic.ofName name).map (fun m => ⟨bind, m, operands⟩)

/-- What the host's variables hold (R72). -/
abbrev HostEnv := List (String × Nat)

/-- The host's arithmetic (R72): no value for an unbound variable or below zero (R63). -/
def AsmOperand.eval (env : HostEnv) : AsmOperand → Option Nat
  | .num n => some n
  | .var name offset =>
    match env.lookup name with
    | none => none
    | some v => if 0 ≤ (v : Int) + offset then some ((v : Int) + offset).toNat else none

/-- A value as a field of `w` bits (R63); none if it does not fit. -/
def asmField (w n : Nat) : Option (BitVec w) := if n < 2 ^ w then some (BitVec.ofNat w n) else none

/-- The values of all operands, in order. -/
def asmValues (env : HostEnv) : List AsmOperand → Option (List Nat)
  | [] => some []
  | o :: os =>
    match o.eval env, asmValues env os with
    | some v, some vs => some (v :: vs)
    | _, _ => none

/-- The values as byte fields. -/
def asmBytes : List Nat → Option (List Byte)
  | [] => some []
  | v :: vs =>
    match asmField 8 v, asmBytes vs with
    | some b, some bs => some (b :: bs)
    | _, _ => none

/-- A command without operands (format N). -/
def asmN (i : Instr) : List Byte → Option Instr
  | [] => some i
  | _ :: _ => none

/-- A command with one byte operand (format B). -/
def asmB (f : Byte → Instr) : List Byte → Option Instr
  | [a] => some (f a)
  | _ => none

/-- WRREG (format RB). -/
def asmRB : List Byte → Option Instr
  | [reg, data] => some (.wrreg reg data)
  | _ => none

/-- WRBURST (format BU): exactly `n` data bytes, 1 to 7 of them. -/
def asmBU : List Byte → Option Instr
  | reg :: n :: data =>
    if n.toNat = data.length ∧ Instr.wellFormed (.wrburst reg data) = true then some (.wrburst reg data) else none
  | _ => none

/-- SETDT, whose first operand is 16 bits wide (R62, R63). -/
def asmSetdt : List Nat → Option Instr
  | year :: rest =>
    match asmField 16 year, asmBytes rest with
    | some y, some [month, date, weekday, hour, minute, second] =>
      some (.setdt y month date weekday hour minute second)
    | _, _ => none
  | [] => none

/-- The command a line stands for, its variables read in `env`. -/
def AsmLine.assemble (env : HostEnv) (l : AsmLine) : Option Instr :=
  match asmValues env l.operands with
  | none => none
  | some vs =>
    match l.command with
    | .wrreg => (asmBytes vs).bind asmRB
    | .rdreg => (asmBytes vs).bind (asmB .rdreg)
    | .wrburst => (asmBytes vs).bind asmBU
    | .bcd2dec => (asmBytes vs).bind (asmB .bcd2dec)
    | .dec2bcd => (asmBytes vs).bind (asmB .dec2bcd)
    | .getsec => (asmBytes vs).bind (asmN .getsec)
    | .getmin => (asmBytes vs).bind (asmN .getmin)
    | .gethour => (asmBytes vs).bind (asmN .gethour)
    | .getday => (asmBytes vs).bind (asmN .getday)
    | .getdate => (asmBytes vs).bind (asmN .getdate)
    | .getmonth => (asmBytes vs).bind (asmN .getmonth)
    | .getyear => (asmBytes vs).bind (asmN .getyear)
    | .setdt => asmSetdt vs

/-- The variables after the response: with status `OK`, `name` is bound to its `value` (R72); a command that failed gives
no value and binds nothing (R150, spec/95_test_vectors.md P4). -/
def AsmLine.bindResponse (env : HostEnv) (l : AsmLine) (r : RspWord) : HostEnv :=
  match l.bind with
  | none => env
  | some name => if rspStatus r = statusOk then (name, (rspValue r).toNat) :: env else env

/-- The operands of a command in the order of R62; WRBURST writes `n` and its `n` data bytes. -/
def asmOperands : Instr → List Nat
  | .wrreg reg data => [reg.toNat, data.toNat]
  | .rdreg reg => [reg.toNat]
  | .wrburst reg data => reg.toNat :: data.length :: data.map BitVec.toNat
  | .bcd2dec b => [b.toNat]
  | .dec2bcd v => [v.toNat]
  | .getsec | .getmin | .gethour | .getday | .getdate | .getmonth | .getyear => []
  | .setdt year month date weekday hour minute second =>
    [year.toNat, month.toNat, date.toNat, weekday.toNat, hour.toNat, minute.toNat, second.toNat]

/-- The line, without variables, that stands for a command. -/
def asmLine (i : Instr) : AsmLine := ⟨none, i.mnemonic, (asmOperands i).map .num⟩

/-- The line as text, numerals in decimal (R72). -/
def asmText (i : Instr) : String :=
  match asmOperands i with
  | [] => Mnemonic.text i.mnemonic
  | ops => Mnemonic.text i.mnemonic ++ " " ++ String.intercalate ", " (ops.map (fun n => toString n))

end Sys2Proof.Machine
end

