-- ==== Sys2Proof/Safety.lean ====
section
/-! DEFINITION. The terms claims are made in: what a run's end is, what a command asks of the transport, the operand
contract, and the invariant of the machine (spec/10_state.md, spec/20_memory.md R35, spec/70_reset_and_hazards.md R185, R195). -/

namespace Sys2Proof.Machine

/-- The block is idle, no reset is asked for, and the host's run has not ended as a fault: the host may present a word. -/
def State.Ready (s : State) : Prop := s.resetLine = false ∧ s.inProgress = none ∧ s.stopped = none

/-- A run is over, and final (R195): `seq = len(P)`, idle, nothing outstanding, no failure. -/
def State.Final (s : State) : Prop := s.seq = s.program.length ∧ s.inProgress = none ∧ s.stopped = none

/-- The one transport request of a command, by the table of R35; none for the codec commands and for an ill-formed burst. -/
def busRequest (m : RegMap) : Instr → Option Request
  | .wrreg reg data => some (.tWrite 0x68 [reg, data])
  | .rdreg reg => some (.tWriteRead 0x68 reg 1)
  | .wrburst reg data => if 1 ≤ data.length ∧ data.length ≤ 7 then some (.tWrite 0x68 (reg :: data)) else none
  | .bcd2dec _ => none
  | .dec2bcd _ => none
  | .getsec => some (.tWriteRead 0x68 m.second 1)
  | .getmin => some (.tWriteRead 0x68 m.minute 1)
  | .gethour => some (.tWriteRead 0x68 m.hour 1)
  | .getday => some (.tWriteRead 0x68 m.day 1)
  | .getdate => some (.tWriteRead 0x68 m.date 1)
  | .getmonth => some (.tWriteRead 0x68 m.month 1)
  | .getyear => some (.tWriteRead 0x68 m.year 1)
  | .setdt year month date weekday hour minute second =>
    some (.tWrite 0x68 [m.second, enc second.toNat, enc minute.toNat, enc hour.toNat, enc weekday.toNat,
      enc date.toNat, enc month.toNat, enc ((year.toNat : Int) - 2000)])

/-- The operand contract of R23 and R185; a command without one is always in contract. -/
def Instr.inContract : Instr → Bool
  | .dec2bcd v => decide (v.toNat ≤ 99)
  | .setdt year month date weekday hour minute second =>
    decide (2000 ≤ year.toNat) && decide (year.toNat ≤ 2099) && decide (1 ≤ month.toNat) && decide (month.toNat ≤ 12) &&
    decide (1 ≤ date.toNat) && decide (date.toNat ≤ 31) && decide (1 ≤ weekday.toNat) && decide (weekday.toNat ≤ 7) &&
    decide (hour.toNat ≤ 23) && decide (minute.toNat ≤ 59) && decide (second.toNat ≤ 59)
  | .wrreg _ _ | .rdreg _ | .wrburst _ _ | .bcd2dec _ => true
  | .getsec | .getmin | .gethour | .getday | .getdate | .getmonth | .getyear => true

/-- The requests the block may make (R31): to 0x68 only; a write of 2 to 8 bytes, or a read of one byte. -/
def Request.legal : Request → Bool
  | .tWrite addr bytes => decide (addr = 0x68) && decide (2 ≤ bytes.length) && decide (bytes.length ≤ 8)
  | .tWriteRead addr _ m => decide (addr = 0x68) && decide (m = 1)

/-- The results R31 gives a request: a write's `Ok` carries no data, a read's `Ok` as many bytes as were asked for; any
failure, or no answer at all (R188). -/
def Exchange.legal (x : Exchange) : Bool :=
  match x.reply with
  | .fail _ => true
  | .noAnswer => true
  | .ok data =>
    match x.request with
    | .tWrite _ _ => decide (data = [])
    | .tWriteRead _ _ m => decide (data.length = m)

/-- The response words the block may give (R66): `OK` with `err` 0, `FAIL` with `value` 0, or the one `ILLEGAL` word. -/
def rspLegal (r : RspWord) : Bool :=
  (decide (rspStatus r = 0x00) && decide (rspErr r = 0)) ||
  (decide (rspStatus r = 0x01) && decide (rspValue r = 0)) ||
  (decide (rspStatus r = 0x02) && decide (rspErr r = 0) && decide (rspValue r = 0))

/-- The invariant of the machine, kept by every step. -/
structure State.Inv (s : State) : Prop where
  /-- RefDev's memory keeps its canonical form. -/
  memWf : Memory.wf s.mem = true
  /-- RefDev has no register outside 0x00 to 0x12 (R46). -/
  memMapped : Memory.mapped s.mem = true
  /-- The register map keeps what R13 fixes. -/
  mapWf : s.regMap.WellFormed
  /-- Every request ever made has a shape of R31 and goes to 0x68 (R12). -/
  requestsLegal : ∀ x ∈ s.history, Request.legal x.request = true
  /-- Every answer ever handed to the block has the shape R31 gives it. -/
  repliesLegal : ∀ x ∈ s.history, x.legal = true
  /-- Every response ever given is a legal word (R66). -/
  responsesLegal : ∀ r ∈ s.responses, rspLegal r = true
  /-- One response per command (R60), `seq` of them `OK` and at most one, the last, not (R11, R160). -/
  counts : s.responses.length = s.seq + (if s.stopped = none then 0 else 1)
  /-- The host's index never passes the end of its program (R11). -/
  seqBound : s.seq ≤ s.program.length
  /-- A command in progress is one whose latest request is unanswered (R21, R188). -/
  outstanding : ∀ c, s.inProgress = some c → s.history.head? = some ⟨c.request, .noAnswer⟩

end Sys2Proof.Machine
end

