-- ==== Sys2Proof/Certificates/Slice0/Obligations.lean ====
section
/-! DEFINITION. The statements for the provers, each from numbered rules of spec/. `Claims` holds the words they share. -/

open Sys2Proof Sys2Proof.Machine

/-- The fields no command writes, whatever the transport answers. -/
def Sys2Proof.Claims.Untouched (s t : State) : Prop :=
  t.regMap = s.regMap ∧ t.program = s.program ∧ t.resetLine = s.resetLine ∧ t.device = s.device

/-- The response is `OK` with value `v` (R66), the host counts the command (R11), and the exchange `x` was made; every
field but the memory is named. -/
def Sys2Proof.Claims.CompletedWith (s t : State) (x : Exchange) (v : Value) : Prop :=
  Claims.Untouched s t ∧ t.inProgress = s.inProgress ∧ t.stopped = s.stopped ∧
  t.responses = rspWord 0x00 0x00 v :: s.responses ∧ t.seq = s.seq + 1 ∧
  t.history = x :: s.history ∧ t.script = s.script.tail

/-- The response is `FAIL` with the transport's code `e` and no value (R66, R150), the host's run ends and `seq` keeps its
value (R11, R160), and the one request `q` was made once (R158); every field but the memory is named. -/
def Sys2Proof.Claims.FailedWith (s t : State) (q : Request) (e : TransportError) : Prop :=
  Claims.Untouched s t ∧ t.inProgress = s.inProgress ∧ t.stopped = some (.transportFailure e) ∧
  t.responses = rspWord 0x01 e 0x0000 :: s.responses ∧ t.seq = s.seq ∧
  t.history = ⟨q, .fail e⟩ :: s.history ∧ t.script = s.script.tail

/-- What a word that is no command does: the response is `ILLEGAL`, the host's run ends, and nothing else changes (R152). -/
def Sys2Proof.Claims.illegalAnswer (s : State) : State :=
  { s with responses := rspWord 0x02 0x00 0x0000 :: s.responses, stopped := some .illegalCommand }

/-- Every byte of RefDev's memory reads as before. -/
def Sys2Proof.Claims.SameBytes (s t : State) : Prop :=
  ∀ a : Nat, Memory.read t.mem a = Memory.read s.mem a

/-- With RefDev behind the transport, `data` lies at `ptr` and after, ascending (R36), and every other byte reads as
before; with the chip, RefDev's memory is not concerned. -/
def Sys2Proof.Claims.StoredBytes (s t : State) (ptr : Byte) (data : List Byte) : Prop :=
  ∀ a : Nat, Memory.read t.mem a =
    if s.device = .refDev ∧ ptr.toNat ≤ a ∧ a < ptr.toNat + data.length then data.getD (a - ptr.toNat) 0
    else Memory.read s.mem a

/-- Every byte outside the `n` registers from `ptr` reads as before; nothing is said of the `n` (R47). -/
def Sys2Proof.Claims.LostBytes (s t : State) (ptr : Byte) (n : Nat) : Prop :=
  ∀ a : Nat, (s.device = .chip ∨ a < ptr.toNat ∨ ptr.toNat + n ≤ a) → Memory.read t.mem a = Memory.read s.mem a

/-- The whole outcome of a command that makes the one request `TWrite(0x68, [ptr] ++ data)`, answered `Ok` or `Fail(e)`. -/
def Sys2Proof.Claims.WritesInOneRequest (i : Instr) (s : State) (ptr : Byte) (data : List Byte) : Prop :=
  (s.replyTo (.tWrite 0x68 (ptr :: data)) = .ok [] →
    ∃ t, exec i s = .next t ∧ Claims.CompletedWith s t ⟨.tWrite 0x68 (ptr :: data), .ok []⟩ 0x0000 ∧
      Claims.StoredBytes s t ptr data) ∧
  (∀ e, s.replyTo (.tWrite 0x68 (ptr :: data)) = .fail e →
    ∃ t, exec i s = .next t ∧ Claims.FailedWith s t (.tWrite 0x68 (ptr :: data)) e ∧
      Claims.LostBytes s t ptr data.length)

/-- The whole outcome of a command that makes the one request `TWriteRead(0x68, [ptr], 1)`, answered `Ok([b])` or `Fail(e)`;
`value` is what it makes of the byte. -/
def Sys2Proof.Claims.ReadsOneByte (i : Instr) (s : State) (ptr : Byte) (value : Byte → Value) : Prop :=
  (∀ b, s.replyTo (.tWriteRead 0x68 ptr 1) = .ok [b] →
    ∃ t, exec i s = .next t ∧ Claims.CompletedWith s t ⟨.tWriteRead 0x68 ptr 1, .ok [b]⟩ (value b) ∧
      Claims.SameBytes s t) ∧
  (∀ e, s.replyTo (.tWriteRead 0x68 ptr 1) = .fail e →
    ∃ t, exec i s = .next t ∧ Claims.FailedWith s t (.tWriteRead 0x68 ptr 1) e)

/-- The number a byte decodes to, high nibble times ten plus low nibble (R101), on the byte's value. -/
def Sys2Proof.Claims.decoded (b : Byte) : Nat := b.toNat / 16 * 10 + b.toNat % 16

/-- The byte with the two decimal digits of a number up to 99, tens digit in the high nibble (R22, R102). -/
def Sys2Proof.Claims.digits (n : Nat) : Byte := BitVec.ofNat 8 (n / 10 * 16 + n % 10)

/-- The registers a request addresses, to write or to read them. -/
def Sys2Proof.Claims.addresses : Request → Nat → Prop
  | .tWrite _ (ptr :: data), a => ptr.toNat ≤ a ∧ a < ptr.toNat + data.length
  | .tWrite _ [], _ => False
  | .tWriteRead _ ptr m, a => ptr.toNat ≤ a ∧ a < ptr.toNat + m

/-- The bus address of a request. -/
def Sys2Proof.Claims.busAddress : Request → BusAddr
  | .tWrite addr _ => addr
  | .tWriteRead addr _ _ => addr

/-- The opcodes R68 lists as illegal, 243 of the 256. -/
def Sys2Proof.Claims.UndefinedOp (op : Byte) : Prop :=
  op.toNat = 0x00 ∨ (0x04 ≤ op.toNat ∧ op.toNat ≤ 0x0F) ∨ (0x12 ≤ op.toNat ∧ op.toNat ≤ 0x1F) ∨
  (0x27 ≤ op.toNat ∧ op.toNat ≤ 0x2F) ∨ 0x31 ≤ op.toNat

/-! ### Encoding -/

/-- R61 to R65: decoding the word of a well-formed command gives the command, with every operand. -/
def Obligations.DecodeEncodeRoundTrip : Prop :=
  ∀ i : Instr, i.WellFormed → decode (encode i) = .ok i

/-- R65: words that differ only in ignored bits are the same command, and the assembler writes zeros there. -/
def Obligations.IgnoredBitsPlayNoPart : Prop :=
  ∀ (w : CmdWord) (i : Instr), decode w = .ok i →
    (∀ w' : CmdWord, w' >>> (80 - i.usedBits) = w >>> (80 - i.usedBits) → decode w' = .ok i) ∧
    encode i = (w >>> (80 - i.usedBits)) <<< (80 - i.usedBits)

/-- R71: what is decoded is a well-formed command of the row its opcode names. -/
def Obligations.DecodedCommandIsWellFormed : Prop :=
  ∀ (w : CmdWord) (i : Instr), decode w = .ok i → i.WellFormed ∧ i.mnemonic.opcode = w.extractLsb 79 72

/-- R68: every `op` not in the map is illegal, and so are the all-zero and the all-ones word. -/
def Obligations.UndefinedOpcodeIsIllegal : Prop :=
  (∀ (s : State) (w : CmdWord), s.Ready → s.program[s.seq]? = some w → Claims.UndefinedOp (w.extractLsb 79 72) →
    step s = .next (Claims.illegalAnswer s)) ∧
  (∀ (s : State) (w : CmdWord), s.Ready → s.program[s.seq]? = some w → w = 0 ∨ w = BitVec.allOnes 80 →
    step s = .next (Claims.illegalAnswer s))

/-- R69: a WRBURST word with `n` 0 or above 7 is illegal, and no other operand value is. -/
def Obligations.BurstCountIsTheOneOperandCheck : Prop :=
  (∀ (s : State) (w : CmdWord), s.Ready → s.program[s.seq]? = some w → w.extractLsb 79 72 = 0x03#8 →
    (w.extractLsb 63 56).toNat = 0 ∨ 7 < (w.extractLsb 63 56).toNat → step s = .next (Claims.illegalAnswer s)) ∧
  (∀ w : CmdWord, ¬ Claims.UndefinedOp (w.extractLsb 79 72) →
    (w.extractLsb 79 72 = 0x03#8 → 1 ≤ (w.extractLsb 63 56).toNat ∧ (w.extractLsb 63 56).toNat ≤ 7) →
    ∃ i, decode w = .ok i)

/-- Words of the spec's examples, one of each format and family. -/
def Obligations.ExampleWordsDecode : Prop :=
  decode 0x01014600000000000000 = .ok (.wrreg 0x01 0x46) ∧
  decode 0x02010000000000000000 = .ok (.rdreg 0x01) ∧
  decode 0x03040315032400000000 = .ok (.wrburst 0x04 [0x15, 0x03, 0x24]) ∧
  decode 0x10450000000000000000 = .ok (.bcd2dec 0x45) ∧
  decode 0x113B0000000000000000 = .ok (.dec2bcd 59) ∧
  decode 0x26FFFFFFFFFFFFFFFFFF = .ok .getyear ∧
  decode 0x3007E8030F05091E0000 = .ok (.setdt 2024 3 15 5 9 30 0)

/-- R66: the places of the three fields of a response word. -/
def Obligations.ResponseWordLayout : Prop :=
  ∀ (status err : Byte) (value : Value),
    (rspWord status err value).extractLsb 31 24 = status ∧ (rspWord status err value).extractLsb 23 16 = err ∧
    (rspWord status err value).extractLsb 15 0 = value

/-- R72: assembling the line that a well-formed command is written as gives the command. -/
def Obligations.AssembledLineIsTheCommand : Prop :=
  ∀ (env : HostEnv) (i : Instr), i.WellFormed → (asmLine i).assemble env = some i

/-! ### The step, the host and reset -/

/-- R11, R60: a step with a word presented that decodes runs exactly that command; the host's index and its stop rule are
in the response (`State.respond`, `State.raise`), so the step adds nothing around `exec`. -/
def Obligations.StepRunsDecodedCommand : Prop :=
  ∀ (s : State) (w : CmdWord) (i : Instr), s.Ready → s.program[s.seq]? = some w → decode w = .ok i →
    step s = exec i s

/-- The word placed by `withFetchWord` is the one the next step runs. That harness is the model's own choice (log entry 2,
DESIGN CHOICE): it stands for loading a program from outside, and no rule of the spec speaks of it. -/
def Obligations.PlacedWordRunsNext : Prop :=
  ∀ (s : State) (nbits w : Nat) (i : Instr), decodeTableWord nbits w = some i →
    step (s.withFetchWord nbits w) = exec i (s.withFetchWord nbits w)

/-- R11: the host's index counts `OK` responses, keeps the index of a command that failed, and at the program's end
nothing more is presented. That the machine then stays as it is, is the model's choice (log entry 15). -/
def Obligations.HostIndexCountsOkResponses : Prop :=
  ∀ s : State, s.Ready →
    (s.program.length ≤ s.seq → step s = .next s) ∧
    (∀ (t : State) (r : RspWord), step s = .next t → t.responses = r :: s.responses →
      t.program = s.program ∧
      (rspStatus r = 0x00 → t.seq = s.seq + 1 ∧ t.stopped = none) ∧
      (rspStatus r ≠ 0x00 → t.seq = s.seq ∧ t.stopped ≠ none))

/-- R195: a run is over, and final, exactly when the index has reached the end of the program with the block idle and no
failure; the step then changes nothing (that it does so is the model's choice, log entry 15). -/
def Obligations.FinalRunStaysAsItIs : Prop :=
  ∀ s : State, s.Ready → (s.Final ↔ s.seq = s.program.length) ∧ (s.Final → step s = .next s)

/-- R160: a run ends at the first response that is not `OK`, and ends there as a fault. -/
def Obligations.RunEndsAtFirstFailure : Prop :=
  ∀ (s t : State) (r : RspWord), s.Ready → step s = .next t → t.responses = r :: s.responses → rspStatus r ≠ 0x00 →
    ∃ f : Failure, r = f.response ∧ step t = .fault (.runFailed f)

/-- R164: if the transport never answers, no response is given and no later command is accepted; R188, R181: the block has
no step, and a reset ends it. That this shows as one step into progress followed by the fault `transportSilent` is the
model's reading (log entry 17). -/
def Obligations.UnansweredRequestHoldsTheBlock : Prop :=
  ∀ (s : State) (w : CmdWord) (i : Instr) (q : Request), s.Ready → s.program[s.seq]? = some w → decode w = .ok i →
    busRequest s.regMap i = some q → s.sendable q = true → s.replyTo q = .noAnswer →
    ∃ t, step s = .next t ∧ t.responses = s.responses ∧ t.seq = s.seq ∧ t.inProgress = some ⟨i, q⟩ ∧
      t.history = ⟨q, .noAnswer⟩ :: s.history ∧ Claims.Untouched s t ∧
      step t = .fault .transportSilent ∧
      ∃ u, step { t with resetLine := true } = .next u ∧ u.inProgress = none

/-- R180, R181: a reset leaves the block idle, makes no request and gives no response; the registers an abandoned request
addressed, to write or to read them, hold any value, and every other byte reads as before. That the host's side stays is
the model's reading (log entry 13). -/
def Obligations.ResetAbandonsTheCommand : Prop :=
  ∀ s : State, s.resetLine = true → Memory.wf s.mem = true →
    ∃ t, step s = .next t ∧ t.inProgress = none ∧ t.resetLine = false ∧ t.history = s.history ∧
      t.responses = s.responses ∧ t.regMap = s.regMap ∧ t.program = s.program ∧ t.seq = s.seq ∧
      t.stopped = s.stopped ∧ t.script = s.script ∧ t.device = s.device ∧
      (s.inProgress = none → Claims.SameBytes s t) ∧
      (∀ c, s.inProgress = some c → ∀ a : Nat, ¬ Claims.addresses c.request a →
        Memory.read t.mem a = Memory.read s.mem a)

/-- R24: idle, no failure, `seq` 0, and the register map's default (the default itself is the spec's general knowledge, log
entry 1, PRESUMED). That no exchange has been made before is the model's choice (log entry 3, DESIGN CHOICE). -/
def Obligations.ResetStateValues : Prop :=
  State.reset.inProgress = none ∧ State.reset.seq = 0 ∧ State.reset.history = [] ∧ State.reset.stopped = none ∧
  Config.deviceAddr = 0x68 ∧
  State.reset.regMap = ⟨0x00, 0x01, 0x02, 0x03, 0x04, 0x05, 0x06, 0x07, 0x0B, 0x0E, 0x0F, 0x11, 0x12⟩

/-! ### The commands -/

/-- R90: WRREG makes one request `TWrite(0x68, [reg, data])`; `OK` with value 0, or the transport's failure. -/
def Obligations.WrregWritesOneByte : Prop :=
  ∀ (s : State) (reg data : Byte), Memory.wf s.mem = true → s.sendable (.tWrite 0x68 [reg, data]) = true →
    Claims.WritesInOneRequest (.wrreg reg data) s reg [data]

/-- R91: RDREG makes one request `TWriteRead(0x68, [reg], 1)` and returns the byte as it came. -/
def Obligations.RdregReturnsTheByte : Prop :=
  ∀ (s : State) (reg : Byte), s.sendable (.tWriteRead 0x68 reg 1) = true →
    Claims.ReadsOneByte (.rdreg reg) s reg (fun b => BitVec.ofNat 16 b.toNat)

/-- R92: WRBURST sends its 1 to 7 bytes in one request; any other length is an illegal command with no bus traffic. -/
def Obligations.WrburstWritesItsBytes : Prop :=
  ∀ (s : State) (reg : Byte) (data : List Byte), Memory.wf s.mem = true →
    (1 ≤ data.length → data.length ≤ 7 → s.sendable (.tWrite 0x68 (reg :: data)) = true →
      Claims.WritesInOneRequest (.wrburst reg data) s reg data) ∧
    (data.length = 0 ∨ 7 < data.length → exec (.wrburst reg data) s = .next (Claims.illegalAnswer s))

/-- R101: BCD2DEC returns tens times ten plus units, at most 165, for every byte; no request, no failure. -/
def Obligations.Bcd2decDecodesEveryByte : Prop :=
  ∀ (s : State) (b : Byte),
    exec (.bcd2dec b) s = .next { s with
      responses := rspWord 0x00 0x00 (BitVec.ofNat 16 (b.toNat / 16 * 10 + b.toNat % 16)) :: s.responses
      seq := s.seq + 1 } ∧
    b.toNat / 16 * 10 + b.toNat % 16 ≤ 165

/-- R102: DEC2BCD returns the BCD byte of 0 to 99 and the unspecified `EncOOR` elsewhere, with status `OK` in both. -/
def Obligations.Dec2bcdEncodesOrIsOpen : Prop :=
  ∀ (s : State) (v : Byte),
    (v.toNat ≤ 99 → exec (.dec2bcd v) s = .next { s with
      responses := rspWord 0x00 0x00 (BitVec.ofNat 16 (v.toNat / 10 * 16 + v.toNat % 10)) :: s.responses
      seq := s.seq + 1 }) ∧
    (99 < v.toNat → exec (.dec2bcd v) s = .next { s with
      responses := rspWord 0x00 0x00 (BitVec.ofNat 16 (Config.encOOR (v.toNat : Int)).toNat) :: s.responses
      seq := s.seq + 1 })

/-- R121, R122, R123: GETSEC, GETMIN, GETHOUR read their register, decode the whole byte and clamp it from above only. -/
def Obligations.TimeGettersClampFromAbove : Prop :=
  ∀ s : State,
    (s.sendable (.tWriteRead 0x68 s.regMap.second 1) = true →
      Claims.ReadsOneByte .getsec s s.regMap.second (fun b => BitVec.ofNat 16 (min (Claims.decoded b) 59))) ∧
    (s.sendable (.tWriteRead 0x68 s.regMap.minute 1) = true →
      Claims.ReadsOneByte .getmin s s.regMap.minute (fun b => BitVec.ofNat 16 (min (Claims.decoded b) 59))) ∧
    (s.sendable (.tWriteRead 0x68 s.regMap.hour 1) = true →
      Claims.ReadsOneByte .gethour s s.regMap.hour (fun b => BitVec.ofNat 16 (min (Claims.decoded b) 23)))

/-- R124, R125, R126: GETDAY, GETDATE, GETMONTH clamp on both sides. -/
def Obligations.DateGettersClampOnBothSides : Prop :=
  ∀ s : State,
    (s.sendable (.tWriteRead 0x68 s.regMap.day 1) = true →
      Claims.ReadsOneByte .getday s s.regMap.day (fun b => BitVec.ofNat 16 (max 1 (min (Claims.decoded b) 7)))) ∧
    (s.sendable (.tWriteRead 0x68 s.regMap.date 1) = true →
      Claims.ReadsOneByte .getdate s s.regMap.date (fun b => BitVec.ofNat 16 (max 1 (min (Claims.decoded b) 31)))) ∧
    (s.sendable (.tWriteRead 0x68 s.regMap.month 1) = true →
      Claims.ReadsOneByte .getmonth s s.regMap.month (fun b => BitVec.ofNat 16 (max 1 (min (Claims.decoded b) 12))))

/-- R127: GETYEAR adds 2000 to the two-digit offset, at most 99. -/
def Obligations.YearGetterAddsTheCentury : Prop :=
  ∀ s : State, s.sendable (.tWriteRead 0x68 s.regMap.year 1) = true →
    Claims.ReadsOneByte .getyear s s.regMap.year (fun b => BitVec.ofNat 16 (min (Claims.decoded b) 99 + 2000))

/-- R140, R141: SETDT writes seven bytes in one request from `REG_SECOND`, in the fixed order second, minute, hour, weekday,
date, month, year offset, each field encoded by itself, with `year - 2000` not cut to a byte. -/
def Obligations.SetdtSendsOneBurst : Prop :=
  ∀ (s : State) (year : BitVec 16) (month date weekday hour minute second : Byte), Memory.wf s.mem = true →
    s.sendable (.tWrite 0x68 [s.regMap.second, enc second.toNat, enc minute.toNat, enc hour.toNat, enc weekday.toNat,
      enc date.toNat, enc month.toNat, enc ((year.toNat : Int) - 2000)]) = true →
    Claims.WritesInOneRequest (.setdt year month date weekday hour minute second) s s.regMap.second
      [enc second.toNat, enc minute.toNat, enc hour.toNat, enc weekday.toNat, enc date.toNat, enc month.toNat,
       enc ((year.toNat : Int) - 2000)]

/-- R140: with every operand in contract the seven bytes that SETDT's one exchange carries are the digits of the seven
fields, tens digit high; and with a request that can be made SETDT does make it. -/
def Obligations.SetdtInContractSendsDigits : Prop :=
  ∀ (s : State) (year : BitVec 16) (month date weekday hour minute second : Byte) (q : Request),
    Instr.inContract (.setdt year month date weekday hour minute second) = true →
    q = .tWrite 0x68 [s.regMap.second, Claims.digits second.toNat, Claims.digits minute.toNat, Claims.digits hour.toNat,
      Claims.digits weekday.toNat, Claims.digits date.toNat, Claims.digits month.toNat,
      Claims.digits (year.toNat - 2000)] →
    (s.sendable q = true → ∃ t, exec (.setdt year month date weekday hour minute second) s = .next t) ∧
    (∀ t, exec (.setdt year month date weekday hour minute second) s = .next t →
      t.history = ⟨q, s.replyTo q⟩ :: s.history)

/-! ### The laws of the codec and the clamps -/

/-- R106: the round trip from a valid BCD byte. -/
def Obligations.RoundTripFromByte : Prop :=
  ∀ b : Byte, (b.extractLsb 7 4).toNat ≤ 9 → (b.extractLsb 3 0).toNat ≤ 9 → enc (dec b : Int) = b

/-- R107: the round trip from a number 0 to 99. -/
def Obligations.RoundTripFromNumber : Prop :=
  ∀ d : Nat, d ≤ 99 → dec (enc (d : Int)) = d

/-- R105: the image of `Dec` is 0 to 165, and on the valid BCD bytes it is one-to-one onto 0 to 99. -/
def Obligations.DecodedImage : Prop :=
  (∀ b : Byte, dec b ≤ 165) ∧ (∀ n : Nat, n ≤ 165 → ∃ b : Byte, dec b = n) ∧
  (∀ b : Byte, validBcd b = true → dec b ≤ 99) ∧
  (∀ n : Nat, n ≤ 99 → ∃ b : Byte, validBcd b = true ∧ dec b = n) ∧
  (∀ b c : Byte, validBcd b = true → validBcd c = true → dec b = dec c → b = c)

/-- R109: on 0 to 99 `Enc` puts the two digits side by side, is strictly increasing, and its image is the valid BCD bytes. -/
def Obligations.EncodedImage : Prop :=
  (∀ v : Nat, v ≤ 99 → enc (v : Int) = (BitVec.ofNat 4 (v / 10) ++ BitVec.ofNat 4 (v % 10) : BitVec 8)) ∧
  (∀ v u : Nat, v < u → u ≤ 99 → (enc (v : Int)).toNat < (enc (u : Int)).toNat) ∧
  (∀ b : Byte, validBcd b = true ↔ ∃ v : Nat, v ≤ 99 ∧ enc (v : Int) = b)

/-- R108: outside the valid BCD bytes the round trip gives another byte, or leaves the contract. Its third point, that a
byte with a low nibble of 10 or more shares its number with another, is stated with the bound it needs: it holds up to
0xF9 only, since 0xFA to 0xFF are alone in decoding to 160 to 165 (log entry 16). -/
def Obligations.RoundTripFailsOutsideBcd : Prop :=
  (∀ b : Byte, 10 ≤ (b.extractLsb 3 0).toNat → dec b ≤ 99 →
    validBcd (enc (dec b : Int)) = true ∧ enc (dec b : Int) ≠ b) ∧
  (∀ b : Byte, 100 ≤ dec b → enc (dec b : Int) = Config.encOOR (dec b : Int)) ∧
  (∀ b : Byte, 10 ≤ (b.extractLsb 3 0).toNat → ((∃ c : Byte, c ≠ b ∧ dec c = dec b) ↔ b.toNat < 0xFA))

/-- R128: whatever the device returns, a getter that is answered `OK` gives a value in its range. -/
def Obligations.ClampLaws : Prop :=
  ∀ (s t : State) (v : Value), t.responses = rspWord 0x00 0x00 v :: s.responses →
    (exec .getmonth s = .next t → 1 ≤ v.toNat ∧ v.toNat ≤ 12) ∧
    (exec .getdate s = .next t → 1 ≤ v.toNat ∧ v.toNat ≤ 31) ∧
    (exec .getday s = .next t → 1 ≤ v.toNat ∧ v.toNat ≤ 7) ∧
    (exec .gethour s = .next t → v.toNat ≤ 23) ∧
    (exec .getmin s = .next t → v.toNat ≤ 59) ∧
    (exec .getsec s = .next t → v.toNat ≤ 59) ∧
    (exec .getyear s = .next t → 2000 ≤ v.toNat ∧ v.toNat ≤ 2099)

/-! ### Rules over all commands -/

/-- R35: a command makes the request its row gives, or none, and never a second one. -/
def Obligations.AtMostOneRequestPerCommand : Prop :=
  ∀ (i : Instr) (s t : State), exec i s = .next t →
    t.history = match busRequest s.regMap i with
      | some q => ⟨q, s.replyTo q⟩ :: s.history
      | none => s.history

/-- R60: exactly one response a command, but for one whose request is never answered. -/
def Obligations.OneResponsePerCommand : Prop :=
  ∀ (i : Instr) (s t : State), exec i s = .next t →
    (∃ r, t.responses = r :: s.responses ∧ t.inProgress = s.inProgress) ∨
    (∃ q, busRequest s.regMap i = some q ∧ s.replyTo q = .noAnswer ∧ t.responses = s.responses ∧
      t.inProgress = some ⟨i, q⟩)

/-- R150: the transport's failure of the one request, and nothing else, makes the response `FAIL`, with its code unmodified. -/
def Obligations.TransportFailurePropagates : Prop :=
  (∀ (i : Instr) (s : State) (q : Request) (e : TransportError), busRequest s.regMap i = some q →
    s.sendable q = true → s.replyTo q = .fail e → ∃ t, exec i s = .next t ∧ Claims.FailedWith s t q e) ∧
  (∀ (i : Instr) (s t : State) (r : RspWord), exec i s = .next t → t.responses = r :: s.responses →
    rspStatus r = 0x01 → ∃ q e, busRequest s.regMap i = some q ∧ s.replyTo q = .fail e ∧ r = rspWord 0x01 e 0x0000)

/-- A read that fails, and a request that is never answered, leave RefDev's bytes as they were. For the failed read this is
the spec's test vector B8 (log entry 22), for the unanswered request the model's choice of the moment (log entry 17): the
registers an unanswered request addressed become open when the reset comes. -/
def Obligations.UnservedRequestStoresNothing : Prop :=
  ∀ (i : Instr) (s t : State) (q : Request), busRequest s.regMap i = some q → exec i s = .next t →
    (∀ reg e, q = .tWriteRead 0x68 reg 1 → s.replyTo q = .fail e → Claims.SameBytes s t) ∧
    (s.replyTo q = .noAnswer → Claims.SameBytes s t)

/-- R153: no operand and no byte read raises anything: a well-formed command whose request, if it makes one, is answered
`Ok` gives status `OK`. -/
def Obligations.NothingElseRaises : Prop :=
  ∀ (i : Instr) (s : State), i.WellFormed →
    (∀ q, busRequest s.regMap i = some q → s.sendable q = true ∧ ∃ data, s.replyTo q = .ok data) →
    ∃ t v, exec i s = .next t ∧ t.responses = rspWord 0x00 0x00 v :: s.responses

/-- R34, R46: the block checks no address; a command never stops but under RefDev with a request outside its map. -/
def Obligations.OnlyRefDevRefuses : Prop :=
  ∀ (i : Instr) (s : State), (∀ f, exec i s ≠ .fault f) ∧
    (∀ r, exec i s = .refused r ↔
      r = .outsideRefDev ∧ s.device = .refDev ∧ ∃ q, busRequest s.regMap i = some q ∧ RefDev.accepts q = false)

/-- R46: the requests RefDev has a meaning for are those to 0x68 that stay within 0x00 to 0x12. -/
def Obligations.RefDevMapBounds : Prop :=
  (∀ ptr : Byte, RefDev.accepts (.tWriteRead 0x68 ptr 1) = true ↔ ptr.toNat ≤ 0x12) ∧
  (∀ (ptr d : Byte) (ds : List Byte), RefDev.accepts (.tWrite 0x68 (ptr :: d :: ds)) = true ↔
    ptr.toNat + (d :: ds).length - 1 ≤ 0x12)

/-- R74: WRREG and WRBURST with one byte make the same request and give the same response. -/
def Obligations.WrregIsBurstOfOne : Prop :=
  ∀ (s : State) (reg data : Byte),
    busRequest s.regMap (.wrreg reg data) = busRequest s.regMap (.wrburst reg [data]) ∧
    (s.replyTo (.tWrite 0x68 [reg, data]) ≠ .noAnswer → exec (.wrreg reg data) s = exec (.wrburst reg [data]) s)

/-- R12: every request goes to `DEVICE_ADDR`, and nothing changes that; R13: nor the register map. -/
def Obligations.OnlyTheDeviceIsAddressed : Prop :=
  ∀ s t : State, step s = .next t →
    t.regMap = s.regMap ∧
    (t.history = s.history ∨ ∃ x, t.history = x :: s.history ∧ Claims.busAddress x.request = 0x68)

/-- R10, R25, R159: a command's exchange, response and effect on the device depend on nothing an earlier command left in the
block or the host, a failure included: only on the transport and the device. -/
def Obligations.NothingIsKeptBetweenCommands : Prop :=
  ∀ (i : Instr) (s s' t t' : State), s.regMap = s'.regMap → s.history = s'.history → s.script = s'.script →
    s.device = s'.device → s.mem = s'.mem → exec i s = .next t → exec i s' = .next t' →
    t.history = t'.history ∧ t.mem = t'.mem ∧ t.script = t'.script ∧
    ∀ r, t.responses = r :: s.responses ↔ t'.responses = r :: s'.responses

/-! ### The reference device -/

/-- R46: under RefDev, which answers by itself, a byte written by WRREG is what RDREG of that register returns next. -/
def Obligations.RefDevReturnsTheByteWritten : Prop :=
  ∀ (s : State) (reg data : Byte), s.device = .refDev → s.script = [] → Memory.wf s.mem = true → reg.toNat ≤ 0x12 →
    ∃ t u, exec (.wrreg reg data) s = .next t ∧ exec (.rdreg reg) t = .next u ∧
      u.responses = rspWord 0x00 0x00 (BitVec.ofNat 16 data.toNat) :: rspWord 0x00 0x00 0x0000 :: s.responses

/-- R143: under RefDev, after a successful SETDT with every operand in contract each getter returns the operand that was
set. -/
def Obligations.SetTimeReadsBack : Prop :=
  ∀ (s : State) (year : BitVec 16) (month date weekday hour minute second : Byte),
    s.device = .refDev → s.script = [] → Memory.wf s.mem = true → s.regMap.WellFormed →
    Instr.inContract (.setdt year month date weekday hour minute second) = true →
    ∃ t, exec (.setdt year month date weekday hour minute second) s = .next t ∧
      t.responses = rspWord 0x00 0x00 0x0000 :: s.responses ∧
      (∃ u, exec .getyear t = .next u ∧ u.responses = rspWord 0x00 0x00 year :: t.responses) ∧
      (∃ u, exec .getmonth t = .next u ∧ u.responses = rspWord 0x00 0x00 (BitVec.ofNat 16 month.toNat) :: t.responses) ∧
      (∃ u, exec .getdate t = .next u ∧ u.responses = rspWord 0x00 0x00 (BitVec.ofNat 16 date.toNat) :: t.responses) ∧
      (∃ u, exec .getday t = .next u ∧ u.responses = rspWord 0x00 0x00 (BitVec.ofNat 16 weekday.toNat) :: t.responses) ∧
      (∃ u, exec .gethour t = .next u ∧ u.responses = rspWord 0x00 0x00 (BitVec.ofNat 16 hour.toNat) :: t.responses) ∧
      (∃ u, exec .getmin t = .next u ∧ u.responses = rspWord 0x00 0x00 (BitVec.ofNat 16 minute.toNat) :: t.responses) ∧
      (∃ u, exec .getsec t = .next u ∧ u.responses = rspWord 0x00 0x00 (BitVec.ofNat 16 second.toNat) :: t.responses)

/-! ### The invariant -/

/-- The state after reset meets the invariant. -/
def Obligations.ResetMeetsTheInvariant : Prop := State.reset.Inv

/-- Every step keeps the invariant (R11, R12, R13, R21, R31, R46, R60, R66), the shape R31 gives the transport's answers
included, from every state that meets it. -/
def Obligations.StepKeepsTheInvariant : Prop :=
  ∀ s t : State, s.Inv → step s = .next t → t.Inv

/-! ### What the transport hands the block, and what the host makes of a response -/

/-- R31: a read's `Ok` carries exactly as many bytes as were asked for, and any other number is a failure; a write's `Ok`
carries none. Whoever answers, what it answered passes through here. Which code such a failure has, is open (log entry 10). -/
def Obligations.WrongLengthReadIsAFailure : Prop :=
  ∀ (s : State) (addr : BusAddr) (data : List Byte),
    (∀ (ptr : Byte) (m : Nat), s.rawReply (.tWriteRead addr ptr m) = .ok data →
      (data.length = m → s.replyTo (.tWriteRead addr ptr m) = .ok data) ∧
      (data.length ≠ m → ∃ e, s.replyTo (.tWriteRead addr ptr m) = .fail e)) ∧
    (∀ (ptr : Byte) (m : Nat), s.replyTo (.tWriteRead addr ptr m) = .ok data → data.length = m) ∧
    (∀ bytes : List Byte, s.replyTo (.tWrite addr bytes) = .ok data → data = [])

/-- R72, P4: a response of status `OK` binds the line's variable to its value, and another response binds nothing. -/
def Obligations.OnlyOkResponsesBindAVariable : Prop :=
  ∀ (env : HostEnv) (l : AsmLine) (name : String) (status err : Byte) (value : Value), l.bind = some name →
    (status = 0x00 → l.bindResponse env (rspWord status err value) = (name, value.toNat) :: env) ∧
    (status ≠ 0x00 → l.bindResponse env (rspWord status err value) = env)

/-- R73, R64: the block exposes every operation as a command, DOC00's private helpers and primitives included: each row has
a well-formed command, and with the chip behind the transport the word of each, when it is presented, runs. -/
def Obligations.EveryOperationIsACommand : Prop :=
  ∀ m : Mnemonic, (∃ i : Instr, i.WellFormed ∧ i.mnemonic = m) ∧
    ∀ (i : Instr) (s : State), i.WellFormed → i.mnemonic = m → s.Ready → s.device = .chip →
      s.program[s.seq]? = some (encode i) → step s = exec i s ∧ ∃ t, exec i s = .next t

/-- R73: DOC00's names are aliases of the rows, and the seven getters and the setter are its public surface. -/
def Obligations.Doc00NamesStandForTheirRows : Prop :=
  Mnemonic.ofName "writeRegister" = some .wrreg ∧ Mnemonic.ofName "readRegister" = some .rdreg ∧
  Mnemonic.ofName "bcdToDecimal" = some .bcd2dec ∧ Mnemonic.ofName "decimalToBcd" = some .dec2bcd ∧
  Mnemonic.ofName "second" = some .getsec ∧ Mnemonic.ofName "minute" = some .getmin ∧
  Mnemonic.ofName "hour" = some .gethour ∧ Mnemonic.ofName "day" = some .getday ∧
  Mnemonic.ofName "date" = some .getdate ∧ Mnemonic.ofName "month" = some .getmonth ∧
  Mnemonic.ofName "year" = some .getyear ∧ Mnemonic.ofName "dateTime" = some .setdt ∧
  Mnemonic.ofName "setDateTime" = some .setdt ∧
  Mnemonic.all.filter Mnemonic.isPublic =
    [.getsec, .getmin, .gethour, .getday, .getdate, .getmonth, .getyear, .setdt]
end

