-- ==== Sys2Proof/Laws/Bcd.lean ====
section
/-! SUPPORT. The codec, unfolded once: Enc inside and outside its contract, the two digits of a byte. -/

namespace Sys2Proof.Machine

/-- `Enc` in contract is the formula (R102). -/
theorem enc_inRange (n : Nat) (h : n ≤ 99) : enc (n : Int) = BitVec.ofNat 8 (n / 10 * 16 + n % 10) := by
  rw [enc, if_pos (by omega)]
  rfl

/-- `Enc` out of contract is the free value (R103). -/
theorem enc_outOfRange {v : Int} (h : v < 0 ∨ 99 < v) : enc v = Config.encOOR v := by
  rw [enc, if_neg (by omega)]

theorem validBcd_iff (b : Byte) :
    validBcd b = true ↔ (b.extractLsb 7 4).toNat ≤ 9 ∧ (b.extractLsb 3 0).toNat ≤ 9 :=
  (Bool.and_eq_true _ _).to_iff.trans (and_congr decide_eq_true_iff decide_eq_true_iff)

theorem zext16_eq (b : Byte) : zext16 b = BitVec.ofNat 16 b.toNat := by
  apply BitVec.eq_of_toNat_eq
  simp [zext16]

end Sys2Proof.Machine
end

