-- ==== Sys2Proof/Laws/Decode.lean ====
section
/-! SUPPORT. The encoder's fields read back, one lemma per field of each format (spec/30_encoding.md R62). -/

namespace Sys2Proof

theorem encodeN_op (op : Byte) : (encodeN op).extractLsb 79 72 = op := by
  apply BitVec.eq_of_getLsbD_eq
  intro k hk
  replace hk : k < 8 := hk
  simp (disch := omega) only [encodeN, BitVec.extractLsb, BitVec.getLsbD_extractLsb', BitVec.getLsbD_append,
    if_neg, hk, decide_true, Bool.true_and]
  congr 1
  omega

theorem encodeB_op (op a : Byte) : (encodeB op a).extractLsb 79 72 = op := by
  apply BitVec.eq_of_getLsbD_eq
  intro k hk
  replace hk : k < 8 := hk
  simp (disch := omega) only [encodeB, BitVec.extractLsb, BitVec.getLsbD_extractLsb', BitVec.getLsbD_append,
    if_neg, hk, decide_true, Bool.true_and]
  congr 1
  omega

theorem encodeB_a (op a : Byte) : (encodeB op a).extractLsb 71 64 = a := by
  apply BitVec.eq_of_getLsbD_eq
  intro k hk
  replace hk : k < 8 := hk
  simp (disch := omega) only [encodeB, BitVec.extractLsb, BitVec.getLsbD_extractLsb', BitVec.getLsbD_append, if_pos,
    if_neg, hk, decide_true, Bool.true_and]
  congr 1
  omega

theorem encodeRB_op (op reg data : Byte) : (encodeRB op reg data).extractLsb 79 72 = op := by
  apply BitVec.eq_of_getLsbD_eq
  intro k hk
  replace hk : k < 8 := hk
  simp (disch := omega) only [encodeRB, BitVec.extractLsb, BitVec.getLsbD_extractLsb', BitVec.getLsbD_append,
    if_neg, hk, decide_true, Bool.true_and]
  congr 1
  omega

theorem encodeRB_reg (op reg data : Byte) : (encodeRB op reg data).extractLsb 71 64 = reg := by
  apply BitVec.eq_of_getLsbD_eq
  intro k hk
  replace hk : k < 8 := hk
  simp (disch := omega) only [encodeRB, BitVec.extractLsb, BitVec.getLsbD_extractLsb', BitVec.getLsbD_append, if_pos,
    if_neg, hk, decide_true, Bool.true_and]
  congr 1
  omega

theorem encodeRB_data (op reg data : Byte) : (encodeRB op reg data).extractLsb 63 56 = data := by
  apply BitVec.eq_of_getLsbD_eq
  intro k hk
  replace hk : k < 8 := hk
  simp (disch := omega) only [encodeRB, BitVec.extractLsb, BitVec.getLsbD_extractLsb', BitVec.getLsbD_append, if_pos,
    if_neg, hk, decide_true, Bool.true_and]
  congr 1
  omega

theorem encodeBU_op (op reg : Byte) (data : List Byte) : (encodeBU op reg data).extractLsb 79 72 = op := by
  apply BitVec.eq_of_getLsbD_eq
  intro k hk
  replace hk : k < 8 := hk
  simp (disch := omega) only [encodeBU, BitVec.extractLsb, BitVec.getLsbD_extractLsb', BitVec.getLsbD_append,
    if_neg, hk, decide_true, Bool.true_and]
  congr 1
  omega

theorem encodeBU_reg (op reg : Byte) (data : List Byte) : (encodeBU op reg data).extractLsb 71 64 = reg := by
  apply BitVec.eq_of_getLsbD_eq
  intro k hk
  replace hk : k < 8 := hk
  simp (disch := omega) only [encodeBU, BitVec.extractLsb, BitVec.getLsbD_extractLsb', BitVec.getLsbD_append, if_pos,
    if_neg, hk, decide_true, Bool.true_and]
  congr 1
  omega

theorem encodeBU_n (op reg : Byte) (data : List Byte) : (encodeBU op reg data).extractLsb 63 56 = BitVec.ofNat 8 data.length := by
  apply BitVec.eq_of_getLsbD_eq
  intro k hk
  replace hk : k < 8 := hk
  simp (disch := omega) only [encodeBU, BitVec.extractLsb, BitVec.getLsbD_extractLsb', BitVec.getLsbD_append, if_pos,
    if_neg, hk, decide_true, Bool.true_and]
  congr 1
  omega

theorem encodeBU_d0 (op reg : Byte) (data : List Byte) : (encodeBU op reg data).extractLsb 55 48 = data.getD 0 0 := by
  apply BitVec.eq_of_getLsbD_eq
  intro k hk
  replace hk : k < 8 := hk
  simp (disch := omega) only [encodeBU, BitVec.extractLsb, BitVec.getLsbD_extractLsb', BitVec.getLsbD_append, if_pos,
    if_neg, hk, decide_true, Bool.true_and]
  congr 1
  omega

theorem encodeBU_d1 (op reg : Byte) (data : List Byte) : (encodeBU op reg data).extractLsb 47 40 = data.getD 1 0 := by
  apply BitVec.eq_of_getLsbD_eq
  intro k hk
  replace hk : k < 8 := hk
  simp (disch := omega) only [encodeBU, BitVec.extractLsb, BitVec.getLsbD_extractLsb', BitVec.getLsbD_append, if_pos,
    if_neg, hk, decide_true, Bool.true_and]
  congr 1
  omega

theorem encodeBU_d2 (op reg : Byte) (data : List Byte) : (encodeBU op reg data).extractLsb 39 32 = data.getD 2 0 := by
  apply BitVec.eq_of_getLsbD_eq
  intro k hk
  replace hk : k < 8 := hk
  simp (disch := omega) only [encodeBU, BitVec.extractLsb, BitVec.getLsbD_extractLsb', BitVec.getLsbD_append, if_pos,
    if_neg, hk, decide_true, Bool.true_and]
  congr 1
  omega

theorem encodeBU_d3 (op reg : Byte) (data : List Byte) : (encodeBU op reg data).extractLsb 31 24 = data.getD 3 0 := by
  apply BitVec.eq_of_getLsbD_eq
  intro k hk
  replace hk : k < 8 := hk
  simp (disch := omega) only [encodeBU, BitVec.extractLsb, BitVec.getLsbD_extractLsb', BitVec.getLsbD_append, if_pos,
    if_neg, hk, decide_true, Bool.true_and]
  congr 1
  omega

theorem encodeBU_d4 (op reg : Byte) (data : List Byte) : (encodeBU op reg data).extractLsb 23 16 = data.getD 4 0 := by
  apply BitVec.eq_of_getLsbD_eq
  intro k hk
  replace hk : k < 8 := hk
  simp (disch := omega) only [encodeBU, BitVec.extractLsb, BitVec.getLsbD_extractLsb', BitVec.getLsbD_append, if_pos,
    if_neg, hk, decide_true, Bool.true_and]
  congr 1
  omega

theorem encodeBU_d5 (op reg : Byte) (data : List Byte) : (encodeBU op reg data).extractLsb 15 8 = data.getD 5 0 := by
  apply BitVec.eq_of_getLsbD_eq
  intro k hk
  replace hk : k < 8 := hk
  simp (disch := omega) only [encodeBU, BitVec.extractLsb, BitVec.getLsbD_extractLsb', BitVec.getLsbD_append, if_pos,
    if_neg, hk, decide_true, Bool.true_and]
  congr 1
  omega

theorem encodeBU_d6 (op reg : Byte) (data : List Byte) : (encodeBU op reg data).extractLsb 7 0 = data.getD 6 0 := by
  apply BitVec.eq_of_getLsbD_eq
  intro k hk
  replace hk : k < 8 := hk
  simp (disch := omega) only [encodeBU, BitVec.extractLsb, BitVec.getLsbD_extractLsb', BitVec.getLsbD_append, if_pos, hk, decide_true, Bool.true_and]
  congr 1
  omega

theorem encodeDT_op (op : Byte) (year : BitVec 16) (month date weekday hour minute second : Byte) : (encodeDT op year month date weekday hour minute second).extractLsb 79 72 = op := by
  apply BitVec.eq_of_getLsbD_eq
  intro k hk
  replace hk : k < 8 := hk
  simp (disch := omega) only [encodeDT, BitVec.extractLsb, BitVec.getLsbD_extractLsb', BitVec.getLsbD_append,
    if_neg, hk, decide_true, Bool.true_and]
  congr 1
  omega

theorem encodeDT_year (op : Byte) (year : BitVec 16) (month date weekday hour minute second : Byte) : (encodeDT op year month date weekday hour minute second).extractLsb 71 56 = year := by
  apply BitVec.eq_of_getLsbD_eq
  intro k hk
  replace hk : k < 16 := hk
  simp (disch := omega) only [encodeDT, BitVec.extractLsb, BitVec.getLsbD_extractLsb', BitVec.getLsbD_append, if_pos,
    if_neg, hk, decide_true, Bool.true_and]
  congr 1
  omega

theorem encodeDT_month (op : Byte) (year : BitVec 16) (month date weekday hour minute second : Byte) : (encodeDT op year month date weekday hour minute second).extractLsb 55 48 = month := by
  apply BitVec.eq_of_getLsbD_eq
  intro k hk
  replace hk : k < 8 := hk
  simp (disch := omega) only [encodeDT, BitVec.extractLsb, BitVec.getLsbD_extractLsb', BitVec.getLsbD_append, if_pos,
    if_neg, hk, decide_true, Bool.true_and]
  congr 1
  omega

theorem encodeDT_date (op : Byte) (year : BitVec 16) (month date weekday hour minute second : Byte) : (encodeDT op year month date weekday hour minute second).extractLsb 47 40 = date := by
  apply BitVec.eq_of_getLsbD_eq
  intro k hk
  replace hk : k < 8 := hk
  simp (disch := omega) only [encodeDT, BitVec.extractLsb, BitVec.getLsbD_extractLsb', BitVec.getLsbD_append, if_pos,
    if_neg, hk, decide_true, Bool.true_and]
  congr 1
  omega

theorem encodeDT_weekday (op : Byte) (year : BitVec 16) (month date weekday hour minute second : Byte) : (encodeDT op year month date weekday hour minute second).extractLsb 39 32 = weekday := by
  apply BitVec.eq_of_getLsbD_eq
  intro k hk
  replace hk : k < 8 := hk
  simp (disch := omega) only [encodeDT, BitVec.extractLsb, BitVec.getLsbD_extractLsb', BitVec.getLsbD_append, if_pos,
    if_neg, hk, decide_true, Bool.true_and]
  congr 1
  omega

theorem encodeDT_hour (op : Byte) (year : BitVec 16) (month date weekday hour minute second : Byte) : (encodeDT op year month date weekday hour minute second).extractLsb 31 24 = hour := by
  apply BitVec.eq_of_getLsbD_eq
  intro k hk
  replace hk : k < 8 := hk
  simp (disch := omega) only [encodeDT, BitVec.extractLsb, BitVec.getLsbD_extractLsb', BitVec.getLsbD_append, if_pos,
    if_neg, hk, decide_true, Bool.true_and]
  congr 1
  omega

theorem encodeDT_minute (op : Byte) (year : BitVec 16) (month date weekday hour minute second : Byte) : (encodeDT op year month date weekday hour minute second).extractLsb 23 16 = minute := by
  apply BitVec.eq_of_getLsbD_eq
  intro k hk
  replace hk : k < 8 := hk
  simp (disch := omega) only [encodeDT, BitVec.extractLsb, BitVec.getLsbD_extractLsb', BitVec.getLsbD_append, if_pos,
    if_neg, hk, decide_true, Bool.true_and]
  congr 1
  omega

theorem encodeDT_second (op : Byte) (year : BitVec 16) (month date weekday hour minute second : Byte) : (encodeDT op year month date weekday hour minute second).extractLsb 15 8 = second := by
  apply BitVec.eq_of_getLsbD_eq
  intro k hk
  replace hk : k < 8 := hk
  simp (disch := omega) only [encodeDT, BitVec.extractLsb, BitVec.getLsbD_extractLsb', BitVec.getLsbD_append, if_pos,
    if_neg, hk, decide_true, Bool.true_and]
  congr 1
  omega

/-- A row's opcode finds the row (R64). -/
theorem Mnemonic.ofOpcode_opcode (m : Mnemonic) : Mnemonic.ofOpcode m.opcode = some m := by
  cases m <;> decide

/-- An opcode that finds a row is that row's (R64). -/
theorem Mnemonic.opcode_of_ofOpcode {op : Byte} {m : Mnemonic} (h : Mnemonic.ofOpcode op = some m) :
    m.opcode = op := by
  have := List.find?_some h
  simpa using this

/-- Seven slots, the first `length` of them: the list itself. -/
theorem take_slots (data : List Byte) (h : data.length ≤ 7) :
    [data.getD 0 0, data.getD 1 0, data.getD 2 0, data.getD 3 0, data.getD 4 0, data.getD 5 0, data.getD 6 0].take
      data.length = data := by
  match data, h with
  | [], _ => rfl
  | [_], _ => rfl
  | [_, _], _ => rfl
  | [_, _, _], _ => rfl
  | [_, _, _, _], _ => rfl
  | [_, _, _, _, _], _ => rfl
  | [_, _, _, _, _, _], _ => rfl
  | [_, _, _, _, _, _, _], _ => rfl
  | _ :: _ :: _ :: _ :: _ :: _ :: _ :: _ :: _, h =>
    simp at h
    omega

end Sys2Proof
end

