-- ==== Sys2Proof/Laws/Memory.lean ====
section
/-! SUPPORT. RefDev's memory: a read after a write, and that every memory operation keeps the canonical form. -/

namespace Sys2Proof.Machine

/-- Nothing is listed below the bound of the canonical form. -/
theorem Memory.read_below {lo a : Nat} {m : Memory} (h : Memory.wfFrom lo m = true) (ha : a < lo) :
    Memory.read m a = Memory.unlisted := by
  induction m generalizing lo with
  | nil => rfl
  | cons c m ih =>
    obtain ⟨k, v⟩ := c
    simp only [Memory.wfFrom, Bool.and_eq_true, decide_eq_true_eq] at h
    have hk : k ≠ a := by omega
    simp only [Memory.read, if_neg hk]
    exact ih h.2 (by omega)

theorem Memory.wfFrom_mono {lo lo' : Nat} {m : Memory} (h : Memory.wfFrom lo m = true) (hl : lo' ≤ lo) :
    Memory.wfFrom lo' m = true := by
  cases m with
  | nil => rfl
  | cons c m =>
    simp only [Memory.wfFrom, Bool.and_eq_true, decide_eq_true_eq] at h ⊢
    exact ⟨⟨by omega, h.1.2⟩, h.2⟩

theorem Memory.wfFrom_write {lo a : Nat} {m : Memory} (v : Byte) (h : Memory.wfFrom lo m = true) (ha : lo ≤ a) :
    Memory.wfFrom lo (Memory.write m a v) = true := by
  induction m generalizing lo with
  | nil =>
    by_cases hv : v = Memory.unlisted <;> simp [Memory.write, Memory.wfFrom, hv, ha]
  | cons c m ih =>
    obtain ⟨k, w⟩ := c
    have h' := h
    simp only [Memory.wfFrom, Bool.and_eq_true, decide_eq_true_eq] at h
    simp only [Memory.write]
    split_ifs with h1 h2 h3 h4
    · exact h'
    · simp only [Memory.wfFrom, Bool.and_eq_true, decide_eq_true_eq]
      exact ⟨⟨ha, h2⟩, ⟨by omega, h.1.2⟩, h.2⟩
    · exact Memory.wfFrom_mono h.2 (by omega)
    · simp only [Memory.wfFrom, Bool.and_eq_true, decide_eq_true_eq]
      exact ⟨⟨ha, h4⟩, h3 ▸ h.2⟩
    · simp only [Memory.wfFrom, Bool.and_eq_true, decide_eq_true_eq]
      exact ⟨h.1, ih h.2 (by omega)⟩

theorem Memory.read_write_from {lo a b : Nat} {m : Memory} (v : Byte) (h : Memory.wfFrom lo m = true) :
    Memory.read (Memory.write m a v) b = if b = a then v else Memory.read m b := by
  induction m generalizing lo with
  | nil =>
    by_cases hv : v = Memory.unlisted
    · by_cases hb : b = a <;> simp [Memory.write, Memory.read, hv, hb]
    · by_cases hb : b = a
      · simp [Memory.write, Memory.read, hv, hb]
      · simp [Memory.write, Memory.read, hv, hb, Ne.symm hb]
  | cons c m ih =>
    obtain ⟨k, w⟩ := c
    have h' := h
    simp only [Memory.wfFrom, Bool.and_eq_true, decide_eq_true_eq] at h
    simp only [Memory.write]
    split_ifs with h1 h2 h3 h4 h5 h6 h7 h8 h9
    · subst h3
      have hk : k ≠ b := by omega
      simp only [Memory.read, if_neg hk]
      rw [h2]
      exact Memory.read_below h.2 (by omega)
    · rfl
    · simp [Memory.read, h4]
    · simp [Memory.read, Ne.symm h4]
    · subst h7
      rw [h6, h5]
      exact Memory.read_below h.2 (by omega)
    · have hk : k ≠ b := by omega
      simp [Memory.read, hk]
    · simp [Memory.read, h8]
    · have hk : k ≠ b := by omega
      have ha : a ≠ b := by omega
      simp [Memory.read, hk, ha]
    · have hk : k ≠ b := by omega
      simp only [Memory.read, if_neg hk]
      rw [ih h.2, if_pos h9]
    · simp only [Memory.read]
      split_ifs
      · rfl
      · rw [ih h.2, if_neg h9]

/-- A read after a write: the byte written at its address, the old byte anywhere else. -/
theorem Memory.read_write {m : Memory} (h : Memory.wf m = true) (a b : Nat) (v : Byte) :
    Memory.read (Memory.write m a v) b = if b = a then v else Memory.read m b :=
  Memory.read_write_from v h

/-- A write keeps the canonical form. -/
theorem Memory.wf_write {m : Memory} (h : Memory.wf m = true) (a : Nat) (v : Byte) :
    Memory.wf (Memory.write m a v) = true :=
  Memory.wfFrom_write v h (Nat.zero_le a)

/-- Canonical memories that read alike are equal data. -/
theorem Memory.eq_of_read {lo : Nat} {m m' : Memory} (h : Memory.wfFrom lo m = true) (h' : Memory.wfFrom lo m' = true)
    (hr : ∀ a, Memory.read m a = Memory.read m' a) : m = m' := by
  induction m generalizing lo m' with
  | nil =>
    cases m' with
    | nil => rfl
    | cons c m' =>
      obtain ⟨k, v⟩ := c
      simp only [Memory.wfFrom, Bool.and_eq_true, decide_eq_true_eq] at h'
      have := hr k
      simp only [Memory.read, if_true] at this
      exact absurd this.symm h'.1.2
  | cons c m ih =>
    obtain ⟨k, v⟩ := c
    simp only [Memory.wfFrom, Bool.and_eq_true, decide_eq_true_eq] at h
    cases m' with
    | nil =>
      have := hr k
      simp only [Memory.read, if_true] at this
      exact absurd this h.1.2
    | cons c' m' =>
      obtain ⟨k', v'⟩ := c'
      have hc := h'
      simp only [Memory.wfFrom, Bool.and_eq_true, decide_eq_true_eq] at h'
      have hk : k = k' := by
        rcases Nat.lt_trichotomy k k' with hlt | heq | hgt
        · have hz : Memory.read ((k', v') :: m') k = Memory.unlisted :=
            Memory.read_below (lo := k') (by
              simp only [Memory.wfFrom, Bool.and_eq_true, decide_eq_true_eq]
              exact ⟨⟨le_refl _, h'.1.2⟩, h'.2⟩) hlt
          have := hr k
          rw [hz] at this
          simp only [Memory.read, if_true] at this
          exact absurd this h.1.2
        · exact heq
        · have hz : Memory.read ((k, v) :: m) k' = Memory.unlisted :=
            Memory.read_below (lo := k) (by
              simp only [Memory.wfFrom, Bool.and_eq_true, decide_eq_true_eq]
              exact ⟨⟨le_refl _, h.1.2⟩, h.2⟩) hgt
          have := hr k'
          rw [hz] at this
          simp only [Memory.read, if_true] at this
          exact absurd this.symm h'.1.2
      subst hk
      have hv : v = v' := by
        have := hr k
        simpa only [Memory.read, if_true] using this
      subst hv
      congr 1
      refine ih h.2 h'.2 fun a => ?_
      by_cases ha : k = a
      · subst ha
        rw [Memory.read_below h.2 (by omega), Memory.read_below h'.2 (by omega)]
      · simpa only [Memory.read, if_neg ha] using hr a

theorem Memory.mapped_write {m : Memory} (h : Memory.mapped m = true) {a : Nat} (ha : a ≤ Config.regHi) (v : Byte) :
    Memory.mapped (Memory.write m a v) = true := by
  induction m with
  | nil => by_cases hv : v = Memory.unlisted <;> simp [Memory.write, Memory.mapped, hv, ha]
  | cons c m ih =>
    obtain ⟨k, w⟩ := c
    simp only [Memory.mapped, List.all_cons, Bool.and_eq_true, decide_eq_true_eq] at h ih
    simp only [Memory.write]
    split_ifs <;> simp only [Memory.mapped, List.all_cons, Bool.and_eq_true, decide_eq_true_eq]
    · exact h
    · exact ⟨ha, h⟩
    · exact h.2
    · exact ⟨ha, h.2⟩
    · exact ⟨h.1, ih h.2⟩

theorem Memory.wf_writeBytes {m : Memory} (h : Memory.wf m = true) (a : Nat) (ds : List Byte) :
    Memory.wf (Memory.writeBytes m a ds) = true := by
  induction ds generalizing m a with
  | nil => exact h
  | cons d ds ih => exact ih (Memory.wf_write h a d) (a + 1)

theorem Memory.mapped_writeBytes {m : Memory} (h : Memory.mapped m = true) {a : Nat} {ds : List Byte}
    (ha : a + ds.length ≤ Config.regHi + 1) : Memory.mapped (Memory.writeBytes m a ds) = true := by
  induction ds generalizing m a with
  | nil => exact h
  | cons d ds ih =>
    simp only [List.length_cons] at ha
    exact ih (Memory.mapped_write h (by omega) d) (by omega)

/-- The bytes of a burst land at ascending addresses, and nothing else changes (R36). -/
theorem Memory.read_writeBytes {m : Memory} (h : Memory.wf m = true) (a b : Nat) (ds : List Byte) :
    Memory.read (Memory.writeBytes m a ds) b =
      if a ≤ b ∧ b < a + ds.length then ds.getD (b - a) 0 else Memory.read m b := by
  induction ds generalizing m a with
  | nil =>
    have : ¬ (a ≤ b ∧ b < a + ([] : List Byte).length) := by simp
    rw [if_neg this]
    rfl
  | cons d ds ih =>
    simp only [Memory.writeBytes]
    rw [ih (Memory.wf_write h a d), Memory.read_write h]
    rcases Nat.lt_trichotomy b a with hb | hb | hb
    · rw [if_neg (by omega), if_neg (by omega), if_neg (by omega)]
    · subst hb
      simp
    · simp only [List.length_cons]
      by_cases hin : b < a + 1 + ds.length
      · rw [if_pos ⟨by omega, hin⟩, if_pos ⟨by omega, by omega⟩]
        have : b - a = (b - (a + 1)) + 1 := by omega
        rw [this, List.getD_cons_succ]
      · rw [if_neg (by omega), if_neg (by omega), if_neg (by omega)]

@[simp] theorem lostBytes_length (h : List Exchange) (a n : Nat) : (lostBytes h a n).length = n := by
  induction n generalizing a with
  | zero => rfl
  | succ n ih => simp [lostBytes, ih]

end Sys2Proof.Machine
end

