-- ==== Sys2Proof/Laws/State.lean ====
section
/-! SUPPORT. What each update of the state leaves in each field: one lemma per field and update. -/

namespace Sys2Proof.Machine

@[simp] theorem State.exchanged_inProgress (s : State) (q : Request) (r : Reply) : (s.exchanged q r).inProgress = s.inProgress := rfl
@[simp] theorem State.exchanged_regMap (s : State) (q : Request) (r : Reply) : (s.exchanged q r).regMap = s.regMap := rfl
@[simp] theorem State.exchanged_program (s : State) (q : Request) (r : Reply) : (s.exchanged q r).program = s.program := rfl
@[simp] theorem State.exchanged_seq (s : State) (q : Request) (r : Reply) : (s.exchanged q r).seq = s.seq := rfl
@[simp] theorem State.exchanged_stopped (s : State) (q : Request) (r : Reply) : (s.exchanged q r).stopped = s.stopped := rfl
@[simp] theorem State.exchanged_responses (s : State) (q : Request) (r : Reply) : (s.exchanged q r).responses = s.responses := rfl
@[simp] theorem State.exchanged_resetLine (s : State) (q : Request) (r : Reply) : (s.exchanged q r).resetLine = s.resetLine := rfl
@[simp] theorem State.exchanged_history (s : State) (q : Request) (r : Reply) : (s.exchanged q r).history = ⟨q, r⟩ :: s.history := rfl
@[simp] theorem State.exchanged_script (s : State) (q : Request) (r : Reply) : (s.exchanged q r).script = s.script.tail := rfl
@[simp] theorem State.exchanged_device (s : State) (q : Request) (r : Reply) : (s.exchanged q r).device = s.device := rfl
@[simp] theorem State.exchanged_mem (s : State) (q : Request) (r : Reply) : (s.exchanged q r).mem = s.mem := rfl

@[simp] theorem State.stored_inProgress (s : State) (q : Request) : (s.stored q).inProgress = s.inProgress := rfl
@[simp] theorem State.stored_regMap (s : State) (q : Request) : (s.stored q).regMap = s.regMap := rfl
@[simp] theorem State.stored_program (s : State) (q : Request) : (s.stored q).program = s.program := rfl
@[simp] theorem State.stored_seq (s : State) (q : Request) : (s.stored q).seq = s.seq := rfl
@[simp] theorem State.stored_stopped (s : State) (q : Request) : (s.stored q).stopped = s.stopped := rfl
@[simp] theorem State.stored_responses (s : State) (q : Request) : (s.stored q).responses = s.responses := rfl
@[simp] theorem State.stored_resetLine (s : State) (q : Request) : (s.stored q).resetLine = s.resetLine := rfl
@[simp] theorem State.stored_history (s : State) (q : Request) : (s.stored q).history = s.history := rfl
@[simp] theorem State.stored_script (s : State) (q : Request) : (s.stored q).script = s.script := rfl
@[simp] theorem State.stored_device (s : State) (q : Request) : (s.stored q).device = s.device := rfl
@[simp] theorem State.stored_mem (s : State) (q : Request) : (s.stored q).mem = if s.onRefDev q then RefDev.store s.mem q else s.mem := rfl

@[simp] theorem State.lost_inProgress (s : State) (q : Request) : (s.lost q).inProgress = s.inProgress := rfl
@[simp] theorem State.lost_regMap (s : State) (q : Request) : (s.lost q).regMap = s.regMap := rfl
@[simp] theorem State.lost_program (s : State) (q : Request) : (s.lost q).program = s.program := rfl
@[simp] theorem State.lost_seq (s : State) (q : Request) : (s.lost q).seq = s.seq := rfl
@[simp] theorem State.lost_stopped (s : State) (q : Request) : (s.lost q).stopped = s.stopped := rfl
@[simp] theorem State.lost_responses (s : State) (q : Request) : (s.lost q).responses = s.responses := rfl
@[simp] theorem State.lost_resetLine (s : State) (q : Request) : (s.lost q).resetLine = s.resetLine := rfl
@[simp] theorem State.lost_history (s : State) (q : Request) : (s.lost q).history = s.history := rfl
@[simp] theorem State.lost_script (s : State) (q : Request) : (s.lost q).script = s.script := rfl
@[simp] theorem State.lost_device (s : State) (q : Request) : (s.lost q).device = s.device := rfl
@[simp] theorem State.lost_mem (s : State) (q : Request) : (s.lost q).mem = if s.onRefDev q then RefDev.lose s.history s.mem q else s.mem := rfl

@[simp] theorem State.abandoned_inProgress (s : State) (q : Request) : (s.abandoned q).inProgress = s.inProgress := rfl
@[simp] theorem State.abandoned_regMap (s : State) (q : Request) : (s.abandoned q).regMap = s.regMap := rfl
@[simp] theorem State.abandoned_program (s : State) (q : Request) : (s.abandoned q).program = s.program := rfl
@[simp] theorem State.abandoned_seq (s : State) (q : Request) : (s.abandoned q).seq = s.seq := rfl
@[simp] theorem State.abandoned_stopped (s : State) (q : Request) : (s.abandoned q).stopped = s.stopped := rfl
@[simp] theorem State.abandoned_responses (s : State) (q : Request) : (s.abandoned q).responses = s.responses := rfl
@[simp] theorem State.abandoned_resetLine (s : State) (q : Request) : (s.abandoned q).resetLine = s.resetLine := rfl
@[simp] theorem State.abandoned_history (s : State) (q : Request) : (s.abandoned q).history = s.history := rfl
@[simp] theorem State.abandoned_script (s : State) (q : Request) : (s.abandoned q).script = s.script := rfl
@[simp] theorem State.abandoned_device (s : State) (q : Request) : (s.abandoned q).device = s.device := rfl
@[simp] theorem State.abandoned_mem (s : State) (q : Request) : (s.abandoned q).mem = if s.onRefDev q then RefDev.abandon s.history s.mem q else s.mem := rfl

@[simp] theorem State.respond_inProgress (s : State) (v : Value) : (s.respond v).inProgress = s.inProgress := rfl
@[simp] theorem State.respond_regMap (s : State) (v : Value) : (s.respond v).regMap = s.regMap := rfl
@[simp] theorem State.respond_program (s : State) (v : Value) : (s.respond v).program = s.program := rfl
@[simp] theorem State.respond_seq (s : State) (v : Value) : (s.respond v).seq = s.seq + 1 := rfl
@[simp] theorem State.respond_stopped (s : State) (v : Value) : (s.respond v).stopped = s.stopped := rfl
@[simp] theorem State.respond_responses (s : State) (v : Value) : (s.respond v).responses = rspOk v :: s.responses := rfl
@[simp] theorem State.respond_resetLine (s : State) (v : Value) : (s.respond v).resetLine = s.resetLine := rfl
@[simp] theorem State.respond_history (s : State) (v : Value) : (s.respond v).history = s.history := rfl
@[simp] theorem State.respond_script (s : State) (v : Value) : (s.respond v).script = s.script := rfl
@[simp] theorem State.respond_device (s : State) (v : Value) : (s.respond v).device = s.device := rfl
@[simp] theorem State.respond_mem (s : State) (v : Value) : (s.respond v).mem = s.mem := rfl

@[simp] theorem State.raise_inProgress (s : State) (f : Failure) : (s.raise f).inProgress = s.inProgress := rfl
@[simp] theorem State.raise_regMap (s : State) (f : Failure) : (s.raise f).regMap = s.regMap := rfl
@[simp] theorem State.raise_program (s : State) (f : Failure) : (s.raise f).program = s.program := rfl
@[simp] theorem State.raise_seq (s : State) (f : Failure) : (s.raise f).seq = s.seq := rfl
@[simp] theorem State.raise_stopped (s : State) (f : Failure) : (s.raise f).stopped = some f := rfl
@[simp] theorem State.raise_responses (s : State) (f : Failure) : (s.raise f).responses = f.response :: s.responses := rfl
@[simp] theorem State.raise_resetLine (s : State) (f : Failure) : (s.raise f).resetLine = s.resetLine := rfl
@[simp] theorem State.raise_history (s : State) (f : Failure) : (s.raise f).history = s.history := rfl
@[simp] theorem State.raise_script (s : State) (f : Failure) : (s.raise f).script = s.script := rfl
@[simp] theorem State.raise_device (s : State) (f : Failure) : (s.raise f).device = s.device := rfl
@[simp] theorem State.raise_mem (s : State) (f : Failure) : (s.raise f).mem = s.mem := rfl

@[simp] theorem State.hold_inProgress (s : State) (i : Instr) (q : Request) : (s.hold i q).inProgress = some ⟨i, q⟩ := rfl
@[simp] theorem State.hold_regMap (s : State) (i : Instr) (q : Request) : (s.hold i q).regMap = s.regMap := rfl
@[simp] theorem State.hold_program (s : State) (i : Instr) (q : Request) : (s.hold i q).program = s.program := rfl
@[simp] theorem State.hold_seq (s : State) (i : Instr) (q : Request) : (s.hold i q).seq = s.seq := rfl
@[simp] theorem State.hold_stopped (s : State) (i : Instr) (q : Request) : (s.hold i q).stopped = s.stopped := rfl
@[simp] theorem State.hold_responses (s : State) (i : Instr) (q : Request) : (s.hold i q).responses = s.responses := rfl
@[simp] theorem State.hold_resetLine (s : State) (i : Instr) (q : Request) : (s.hold i q).resetLine = s.resetLine := rfl
@[simp] theorem State.hold_history (s : State) (i : Instr) (q : Request) : (s.hold i q).history = s.history := rfl
@[simp] theorem State.hold_script (s : State) (i : Instr) (q : Request) : (s.hold i q).script = s.script := rfl
@[simp] theorem State.hold_device (s : State) (i : Instr) (q : Request) : (s.hold i q).device = s.device := rfl
@[simp] theorem State.hold_mem (s : State) (i : Instr) (q : Request) : (s.hold i q).mem = s.mem := rfl

@[simp] theorem State.rejectWord_inProgress (s : State) : s.rejectWord.inProgress = s.inProgress := rfl
@[simp] theorem State.rejectWord_regMap (s : State) : s.rejectWord.regMap = s.regMap := rfl
@[simp] theorem State.rejectWord_program (s : State) : s.rejectWord.program = s.program := rfl
@[simp] theorem State.rejectWord_seq (s : State) : s.rejectWord.seq = s.seq := rfl
@[simp] theorem State.rejectWord_stopped (s : State) : s.rejectWord.stopped = some .illegalCommand := rfl
@[simp] theorem State.rejectWord_responses (s : State) : s.rejectWord.responses = Failure.illegalCommand.response :: s.responses := rfl
@[simp] theorem State.rejectWord_resetLine (s : State) : s.rejectWord.resetLine = s.resetLine := rfl
@[simp] theorem State.rejectWord_history (s : State) : s.rejectWord.history = s.history := rfl
@[simp] theorem State.rejectWord_script (s : State) : s.rejectWord.script = s.script := rfl
@[simp] theorem State.rejectWord_device (s : State) : s.rejectWord.device = s.device := rfl
@[simp] theorem State.rejectWord_mem (s : State) : s.rejectWord.mem = s.mem := rfl

@[simp] theorem State.withFetchWord_inProgress (s : State) (nbits w : Nat) : (s.withFetchWord nbits w).inProgress = none := rfl
@[simp] theorem State.withFetchWord_regMap (s : State) (nbits w : Nat) : (s.withFetchWord nbits w).regMap = s.regMap := rfl
@[simp] theorem State.withFetchWord_program (s : State) (nbits w : Nat) : (s.withFetchWord nbits w).program = placeWord s.program s.seq (tableWord nbits w) := rfl
@[simp] theorem State.withFetchWord_seq (s : State) (nbits w : Nat) : (s.withFetchWord nbits w).seq = s.seq := rfl
@[simp] theorem State.withFetchWord_stopped (s : State) (nbits w : Nat) : (s.withFetchWord nbits w).stopped = none := rfl
@[simp] theorem State.withFetchWord_responses (s : State) (nbits w : Nat) : (s.withFetchWord nbits w).responses = s.responses := rfl
@[simp] theorem State.withFetchWord_resetLine (s : State) (nbits w : Nat) : (s.withFetchWord nbits w).resetLine = false := rfl
@[simp] theorem State.withFetchWord_history (s : State) (nbits w : Nat) : (s.withFetchWord nbits w).history = s.history := rfl
@[simp] theorem State.withFetchWord_script (s : State) (nbits w : Nat) : (s.withFetchWord nbits w).script = s.script := rfl
@[simp] theorem State.withFetchWord_device (s : State) (nbits w : Nat) : (s.withFetchWord nbits w).device = s.device := rfl
@[simp] theorem State.withFetchWord_mem (s : State) (nbits w : Nat) : (s.withFetchWord nbits w).mem = s.mem := rfl

@[simp] theorem State.resetBlock_inProgress (s : State) : s.resetBlock.inProgress = none := rfl
@[simp] theorem State.resetBlock_regMap (s : State) : s.resetBlock.regMap = s.regMap := rfl
@[simp] theorem State.resetBlock_program (s : State) : s.resetBlock.program = s.program := rfl
@[simp] theorem State.resetBlock_seq (s : State) : s.resetBlock.seq = s.seq := rfl
@[simp] theorem State.resetBlock_stopped (s : State) : s.resetBlock.stopped = s.stopped := rfl
@[simp] theorem State.resetBlock_responses (s : State) : s.resetBlock.responses = s.responses := rfl
@[simp] theorem State.resetBlock_resetLine (s : State) : s.resetBlock.resetLine = false := rfl
@[simp] theorem State.resetBlock_history (s : State) : s.resetBlock.history = s.history := rfl
@[simp] theorem State.resetBlock_script (s : State) : s.resetBlock.script = s.script := rfl
@[simp] theorem State.resetBlock_device (s : State) : s.resetBlock.device = s.device := rfl
@[simp] theorem State.exchanged_onRefDev (s : State) (q q' : Request) (r : Reply) :
    (s.exchanged q r).onRefDev q' = s.onRefDev q' := rfl

end Sys2Proof.Machine
end

