-- ==== Sys2Proof/Laws/Ops.lean ====
section
/-! SUPPORT. What the shared operations can do: the transport port, a bus command, reset of the block. -/

namespace Sys2Proof.Machine

/-- To the chip every request can be made (R34). -/
theorem State.sendable_chip {s : State} (h : s.device = .chip) (q : Request) : s.sendable q = true := by
  simp [State.sendable, h]

theorem State.sendable_refDev {s : State} (h : s.device = .refDev) (q : Request) :
    s.sendable q = RefDev.accepts q := by
  simp [State.sendable, h]

theorem State.onRefDev_chip {s : State} (h : s.device = .chip) (q : Request) : s.onRefDev q = false := by
  simp [State.onRefDev, h]

theorem State.onRefDev_refDev {s : State} (h : s.device = .refDev) (q : Request) :
    s.onRefDev q = RefDev.accepts q := by
  simp [State.onRefDev, h]

theorem State.accepts_of_onRefDev {s : State} {q : Request} (h : s.onRefDev q = true) :
    RefDev.accepts q = true := by
  unfold State.onRefDev at h
  split at h
  · cases h
  · exact h

/-- A request that can be made ends in a next state. -/
theorem State.transact_next {s : State} (i : Instr) {q : Request} (k : List Byte → Value)
    (h : s.sendable q = true) : s.transact i q k = .next (s.concluded i q k (s.replyTo q)) := by
  simp [State.transact, h]

/-- One that cannot is refused by name. -/
theorem State.transact_refused {s : State} (i : Instr) {q : Request} (k : List Byte → Value)
    (h : s.sendable q = false) : s.transact i q k = .refused .outsideRefDev := by
  simp [State.transact, h]

/-- Everything a bus command can do: it ends by the transport's answer, or the request could not be made. -/
theorem State.transact_cases {s t : State} {i : Instr} {q : Request} {k : List Byte → Value}
    (h : s.transact i q k = .next t) :
    s.sendable q = true ∧
    ((∃ data, s.replyTo q = .ok data ∧ t = ((s.exchanged q (.ok data)).stored q).respond (k data)) ∨
     (∃ e, s.replyTo q = .fail e ∧ t = ((s.exchanged q (.fail e)).lost q).raise (.transportFailure e)) ∨
     (s.replyTo q = .noAnswer ∧ t = (s.exchanged q .noAnswer).hold i q)) := by
  unfold State.transact at h
  split at h
  case isTrue hs =>
    refine ⟨hs, ?_⟩
    have h := (Host.Outcome.next.inj h).symm
    cases hr : s.replyTo q with
    | ok data => exact .inl ⟨data, rfl, by rw [h, hr]; rfl⟩
    | fail e => exact .inr (.inl ⟨e, rfl, by rw [h, hr]; rfl⟩)
    | noAnswer => exact .inr (.inr ⟨rfl, by rw [h, hr]; rfl⟩)
  case isFalse => cases h

theorem State.transact_not_fault {s : State} {i : Instr} {q : Request} {k : List Byte → Value} {f : Fault} :
    s.transact i q k ≠ .fault f := by
  unfold State.transact
  split <;> intro h <;> cases h

/-- A write's `Ok` carries no data (R31). -/
theorem State.replyTo_write_ok {s : State} {addr : BusAddr} {bytes data : List Byte}
    (h : s.replyTo (.tWrite addr bytes) = .ok data) : data = [] := by
  unfold State.replyTo at h
  cases hr : s.rawReply (.tWrite addr bytes) <;> rw [hr] at h <;> simp [Reply.forRequest] at h
  exact h

/-- A read's `Ok` carries as many bytes as were asked for (R31). -/
theorem State.replyTo_read_ok {s : State} {addr : BusAddr} {ptr : Byte} {m : Nat} {data : List Byte}
    (h : s.replyTo (.tWriteRead addr ptr m) = .ok data) : data.length = m := by
  unfold State.replyTo at h
  cases hr : s.rawReply (.tWriteRead addr ptr m) <;> rw [hr] at h <;> simp only [Reply.forRequest] at h
  · split at h
    · rename_i hl
      cases h
      exact hl
    · cases h
  · cases h
  · cases h

theorem RefDev.store_wf {m : Memory} (h : Memory.wf m = true) (q : Request) : Memory.wf (RefDev.store m q) = true := by
  unfold RefDev.store
  split
  · exact Memory.wf_writeBytes h _ _
  · exact h
  · exact h

theorem RefDev.lose_wf {m : Memory} (h : Memory.wf m = true) (x : List Exchange) (q : Request) :
    Memory.wf (RefDev.lose x m q) = true := by
  unfold RefDev.lose
  split
  · exact Memory.wf_writeBytes h _ _
  · exact h
  · exact h

theorem RefDev.store_mapped {m : Memory} (h : Memory.mapped m = true) {q : Request} (hq : RefDev.accepts q = true) :
    Memory.mapped (RefDev.store m q) = true := by
  unfold RefDev.store
  split
  · rename_i ptr data
    cases data with
    | nil => exact h
    | cons d ds =>
      simp only [RefDev.accepts, Bool.and_eq_true, decide_eq_true_eq] at hq
      exact Memory.mapped_writeBytes h hq.2
  · exact h
  · exact h

theorem RefDev.lose_mapped {m : Memory} (h : Memory.mapped m = true) (x : List Exchange) {q : Request}
    (hq : RefDev.accepts q = true) : Memory.mapped (RefDev.lose x m q) = true := by
  unfold RefDev.lose
  split
  · rename_i ptr data
    cases data with
    | nil => exact h
    | cons d ds =>
      simp only [RefDev.accepts, Bool.and_eq_true, decide_eq_true_eq] at hq
      exact Memory.mapped_writeBytes h (by rw [lostBytes_length]; exact hq.2)
  · exact h
  · exact h

theorem RefDev.abandon_wf {m : Memory} (h : Memory.wf m = true) (x : List Exchange) (q : Request) :
    Memory.wf (RefDev.abandon x m q) = true := by
  cases q with
  | tWrite addr bytes => exact RefDev.lose_wf h x _
  | tWriteRead addr ptr n => exact Memory.wf_writeBytes h _ _

theorem RefDev.abandon_mapped {m : Memory} (h : Memory.mapped m = true) (x : List Exchange) {q : Request}
    (hq : RefDev.accepts q = true) : Memory.mapped (RefDev.abandon x m q) = true := by
  cases q with
  | tWrite addr bytes => exact RefDev.lose_mapped h x hq
  | tWriteRead addr ptr n =>
    simp only [RefDev.accepts, Bool.and_eq_true, decide_eq_true_eq] at hq
    exact Memory.mapped_writeBytes h (by rw [lostBytes_length, hq.1.2]; exact Nat.succ_le_succ hq.2)

/-- A read, answered or failed, leaves RefDev as it was. -/
theorem State.stored_read_mem (s : State) (addr : BusAddr) (ptr : Byte) (m : Nat) :
    (s.stored (.tWriteRead addr ptr m)).mem = s.mem :=
  ite_self s.mem

theorem State.lost_read_mem (s : State) (addr : BusAddr) (ptr : Byte) (m : Nat) :
    (s.lost (.tWriteRead addr ptr m)).mem = s.mem :=
  ite_self s.mem

theorem State.stored_wf {s : State} (h : Memory.wf s.mem = true) (q : Request) :
    Memory.wf (s.stored q).mem = true := by
  rw [State.stored_mem]
  split
  · exact RefDev.store_wf h q
  · exact h

theorem State.lost_wf {s : State} (h : Memory.wf s.mem = true) (q : Request) : Memory.wf (s.lost q).mem = true := by
  rw [State.lost_mem]
  split
  · exact RefDev.lose_wf h _ q
  · exact h

theorem State.stored_mapped {s : State} (h : Memory.mapped s.mem = true) (q : Request) :
    Memory.mapped (s.stored q).mem = true := by
  rw [State.stored_mem]
  split
  · rename_i hq
    exact RefDev.store_mapped h (State.accepts_of_onRefDev hq)
  · exact h

theorem State.lost_mapped {s : State} (h : Memory.mapped s.mem = true) (q : Request) :
    Memory.mapped (s.lost q).mem = true := by
  rw [State.lost_mem]
  split
  · rename_i hq
    exact RefDev.lose_mapped h _ (State.accepts_of_onRefDev hq)
  · exact h

theorem State.abandoned_wf {s : State} (h : Memory.wf s.mem = true) (q : Request) :
    Memory.wf (s.abandoned q).mem = true := by
  rw [State.abandoned_mem]
  split
  · exact RefDev.abandon_wf h _ q
  · exact h

theorem State.abandoned_mapped {s : State} (h : Memory.mapped s.mem = true) (q : Request) :
    Memory.mapped (s.abandoned q).mem = true := by
  rw [State.abandoned_mem]
  split
  · rename_i hq
    exact RefDev.abandon_mapped h _ (State.accepts_of_onRefDev hq)
  · exact h

theorem State.resetBlock_mem_idle {s : State} (h : s.inProgress = none) : s.resetBlock.mem = s.mem := by
  simp [State.resetBlock, h]

theorem State.resetBlock_mem_busy {s : State} {c : InFlight} (h : s.inProgress = some c) :
    s.resetBlock.mem = (s.abandoned c.request).mem := by
  simp [State.resetBlock, h]

theorem State.resetBlock_wf {s : State} (h : Memory.wf s.mem = true) : Memory.wf s.resetBlock.mem = true := by
  cases hc : s.inProgress with
  | none => rw [State.resetBlock_mem_idle hc]; exact h
  | some c => rw [State.resetBlock_mem_busy hc]; exact State.abandoned_wf h _

/-- The word placed is the one presented. -/
theorem placeWord_get (p : List CmdWord) (n : Nat) (w : CmdWord) : (placeWord p n w)[n]? = some w := by
  induction n generalizing p with
  | zero => cases p <;> rfl
  | succ n ih => cases p <;> simp [placeWord, ih]

@[simp] theorem State.withFetchWord_presented (s : State) (nbits w : Nat) :
    (s.withFetchWord nbits w).presented = some (tableWord nbits w) := by
  simp [State.presented, placeWord_get]

/-- The memory after reset has the canonical form. -/
theorem State.reset_mem_wf : Memory.wf State.reset.mem = true := rfl

end Sys2Proof.Machine
end

