-- ==== Sys2Proof/Laws/PerInstr.lean ====
section
/-! SUPPORT. Statements about every command as syntax, one lemma per constructor. -/

namespace Sys2Proof.Laws.EncodedOpcode

/-- The word of a command carries its row's opcode in `cmd[79:72]`, and that opcode finds its row again (R61, R64). -/
def Statement (i : Instr) : Prop :=
  opField (encode i) = i.mnemonic.opcode ∧ Mnemonic.ofOpcode (opField (encode i)) = some i.mnemonic

theorem of_opField {i : Instr} (h : opField (encode i) = i.mnemonic.opcode) : Statement i :=
  ⟨h, h ▸ Mnemonic.ofOpcode_opcode i.mnemonic⟩

theorem wrreg (reg data : Byte) : Statement (.wrreg reg data) := of_opField (encodeRB_op _ _ _)

theorem rdreg (reg : Byte) : Statement (.rdreg reg) := of_opField (encodeB_op _ _)

theorem wrburst (reg : Byte) (data : List Byte) : Statement (.wrburst reg data) := of_opField (encodeBU_op _ _ _)

theorem bcd2dec (b : Byte) : Statement (.bcd2dec b) := of_opField (encodeB_op _ _)

theorem dec2bcd (v : Byte) : Statement (.dec2bcd v) := of_opField (encodeB_op _ _)

theorem getsec : Statement (.getsec) := of_opField (encodeN_op _)

theorem getmin : Statement (.getmin) := of_opField (encodeN_op _)

theorem gethour : Statement (.gethour) := of_opField (encodeN_op _)

theorem getday : Statement (.getday) := of_opField (encodeN_op _)

theorem getdate : Statement (.getdate) := of_opField (encodeN_op _)

theorem getmonth : Statement (.getmonth) := of_opField (encodeN_op _)

theorem getyear : Statement (.getyear) := of_opField (encodeN_op _)

theorem setdt (year : BitVec 16) (month date weekday hour minute second : Byte) : Statement (.setdt year month date weekday hour minute second) := of_opField (encodeDT_op _ _ _ _ _ _ _ _)

end Sys2Proof.Laws.EncodedOpcode
end

