-- ==== Sys2Proof/Laws/Step.lean ====
section
/-! SUPPORT. What a command and a step can do, said once; later proofs cite these and unfold neither. -/

namespace Sys2Proof.Machine

/-- The transport hands the block only results of R31's shape. -/
theorem State.replyTo_legal (s : State) (q : Request) : Exchange.legal ⟨q, s.replyTo q⟩ = true := by
  unfold Exchange.legal
  split
  · rfl
  · rfl
  · rename_i data h
    split
    · rename_i hq
      cases hq
      exact decide_eq_true (State.replyTo_write_ok h)
    · rename_i hq
      cases hq
      exact decide_eq_true (State.replyTo_read_ok h)

/-- A command with a request is one call of `State.transact` with that request. -/
theorem exec_bus {i : Instr} {s : State} {q : Request} (h : busRequest s.regMap i = some q) :
    ∃ k, exec i s = s.transact i q k := by
  cases i <;> simp only [busRequest] at h
  case wrburst reg data =>
    split at h
    · rename_i hc; cases h
      exact ⟨noValue, by show (if 1 ≤ data.length ∧ data.length ≤ 7 then _ else _) = _; rw [if_pos hc]; rfl⟩
    · cases h
  all_goals first | cases h; done | (cases h; exact ⟨_, rfl⟩)

/-- A command without a request answers at once: `OK`, or `ILLEGAL` for an ill-formed burst. -/
theorem exec_nobus {i : Instr} {s : State} (h : busRequest s.regMap i = none) :
    (∃ v, exec i s = .next (s.respond v)) ∨ (¬ i.WellFormed ∧ exec i s = .next (s.raise .illegalCommand)) := by
  cases i <;> simp only [busRequest] at h
  case wrburst reg data =>
    split at h
    · cases h
    · rename_i hc
      refine .inr ⟨?_, ?_⟩
      · simp only [Instr.WellFormed, Instr.wellFormed, Bool.and_eq_true, decide_eq_true_eq]; exact hc
      · show (if 1 ≤ data.length ∧ data.length ≤ 7 then _ else _) = _; rw [if_neg hc]
  all_goals first | cases h; done | exact .inl ⟨_, rfl⟩

/-- Everything a command that answers a next state can have done. -/
theorem exec_cases {i : Instr} {s t : State} (h : exec i s = .next t) :
    (∃ v, busRequest s.regMap i = none ∧ t = s.respond v) ∨
    (¬ i.WellFormed ∧ busRequest s.regMap i = none ∧ t = s.raise .illegalCommand) ∨
    ∃ q, busRequest s.regMap i = some q ∧ s.sendable q = true ∧
    ((∃ data v, s.replyTo q = .ok data ∧ t = ((s.exchanged q (.ok data)).stored q).respond v) ∨
     (∃ e, s.replyTo q = .fail e ∧ t = ((s.exchanged q (.fail e)).lost q).raise (.transportFailure e)) ∨
     (s.replyTo q = .noAnswer ∧ t = (s.exchanged q .noAnswer).hold i q)) := by
  cases hb : busRequest s.regMap i with
  | none =>
    rcases exec_nobus hb with ⟨v, hv⟩ | ⟨hw, hv⟩ <;> rw [hv] at h <;> cases h
    · exact .inl ⟨v, rfl, rfl⟩
    · exact .inr (.inl ⟨hw, rfl, rfl⟩)
  | some q =>
    obtain ⟨k, hk⟩ := exec_bus hb
    rw [hk] at h
    obtain ⟨hs, h⟩ := State.transact_cases h
    refine .inr (.inr ⟨q, rfl, hs, ?_⟩)
    rcases h with ⟨d, h1, h2⟩ | h | h
    · exact .inl ⟨d, _, h1, h2⟩
    · exact .inr (.inl h)
    · exact .inr (.inr h)

/-- Everything a step that answers a next state can have done. -/
theorem step_cases {s t : State} (h : step s = .next t) :
    (s.resetLine = true ∧ t = s.resetBlock) ∨ (s.Ready ∧ (s.presented = none ∧ t = s ∨
     (∃ w e, s.presented = some w ∧ decode w = .error e ∧ t = s.raise .illegalCommand) ∨
     ∃ w i, s.presented = some w ∧ decode w = .ok i ∧ exec i s = .next t)) := by
  unfold step at h
  split at h
  · rename_i hr; exact .inl ⟨hr, (Host.Outcome.next.inj h).symm⟩
  · rename_i hr
    split at h
    · cases h
    · rename_i hi
      split at h
      · cases h
      · rename_i hst
        refine .inr ⟨⟨by simpa using hr, hi, hst⟩, ?_⟩
        split at h
        · rename_i hp; exact .inl ⟨hp, (Host.Outcome.next.inj h).symm⟩
        · rename_i w hp
          split at h
          · rename_i e hd; exact .inr (.inl ⟨w, e, hp, hd, (Host.Outcome.next.inj h).symm⟩)
          · rename_i i hd; exact .inr (.inr ⟨w, i, hp, hd, h⟩)

end Sys2Proof.Machine
end

