-- ==== Sys2Proof/Tests/Slice0.lean ====
section
/-! SUPPORT. Tests of one step each, with expected results from spec/95_test_vectors.md (the row is named at each), and a
witness for the hypotheses of each statement of Certificates/Slice0/Obligations.lean. -/

open Sys2Proof Sys2Proof.Machine

namespace Sys2Proof.Tests

/-! ### Small states -/

/-- The real chip behind the transport, with answers fixed for the coming requests. -/
def chip (script : List (Option Reply)) : State := { State.reset with script := script }

/-- RefDev behind the transport, answering by itself. -/
def ref (mem : Memory) : State := { State.reset with device := .refDev, mem := mem }

/-- RefDev behind the transport, the first request answered as given. -/
def refScript (mem : Memory) (r : Reply) : State := { ref mem with script := [some r] }

/-- One step on the word. -/
def run (s : State) (w : Nat) : Host.Outcome State Fault Refusal := step (s.withFetchWord 80 w)

/-- What a step shows: the responses, the exchanges and RefDev's memory. -/
def seen : Host.Outcome State Fault Refusal → Option (List RspWord × List Exchange × Memory)
  | .next t => some (t.responses, t.history, t.mem)
  | .fault _ => none
  | .refused _ => none

def isNext : Host.Outcome State Fault Refusal → Bool
  | .next _ => true
  | .fault _ => false
  | .refused _ => false

def refusal : Host.Outcome State Fault Refusal → Option Refusal
  | .refused r => some r
  | .next _ => none
  | .fault _ => none

def faultOf : Host.Outcome State Fault Refusal → Option Fault
  | .fault f => some f
  | .next _ => none
  | .refused _ => none

/-! ### Well-formedness: each check refuses an ill-formed term -/

theorem test_illformed_empty_burst : ¬ (Instr.wrburst 0x04 []).WellFormed := by decide
theorem test_illformed_long_burst : ¬ (Instr.wrburst 0x04 [1, 2, 3, 4, 5, 6, 7, 8]).WellFormed := by decide
theorem test_wellformed_burst_of_seven : (Instr.wrburst 0x04 [1, 2, 3, 4, 5, 6, 7]).WellFormed := by decide
theorem test_default_map_wellformed : Config.regMapDefault.WellFormed := by decide
theorem test_illformed_map_range :
    ¬ RegMap.WellFormed { Config.regMapDefault with tempLower := 0x13 } := by decide
theorem test_illformed_map_order :
    ¬ RegMap.WellFormed { Config.regMapDefault with hour := 0x03 } := by decide

/-! ### Decoding (R62, R64; section 3.5, X1 to X11) -/

/-- R64's table: opcode and format of each row, in order. -/
theorem test_opcode_table : Mnemonic.all.map (fun m => (m.opcode, m.format)) =
    [(0x01, .rb), (0x02, .b), (0x03, .bu), (0x10, .b), (0x11, .b), (0x20, .n), (0x21, .n), (0x22, .n), (0x23, .n),
     (0x24, .n), (0x25, .n), (0x26, .n), (0x30, .dt)] := by decide

/-- X1 to X8: the words that are no command. -/
theorem test_decode_illegal :
    decode 0x00000000000000000000 = .error (.opcode 0x00) ∧ decode 0xFFFFFFFFFFFFFFFFFFFF = .error (.opcode 0xFF) ∧
    decode 0x04000000000000000000 = .error (.opcode 0x04) ∧ decode 0x12450000000000000000 = .error (.opcode 0x12) ∧
    decode 0x27000000000000000000 = .error (.opcode 0x27) ∧ decode 0x3107E8030F05091E0000 = .error (.opcode 0x31) ∧
    decode 0x03040000000000000000 = .error (.burstLength 0) ∧
    decode 0x03040800000000000000 = .error (.burstLength 8) := by decide

/-- X9 to X11 and B12: ignored bits. -/
theorem test_decode_ignored_bits :
    decode 0x0201FFFFFFFFFFFFFFFF = .ok (.rdreg 0x01) ∧ decode 0x010146FFFFFFFFFFFFFF = .ok (.wrreg 0x01 0x46) ∧
    decode 0x3007E8030F05091E00AB = .ok (.setdt 2024 3 15 5 9 30 0) ∧
    decode 0x0304021503EEEEEEEEEE = .ok (.wrburst 0x04 [0x15, 0x03]) := by decide

/-- Each row's word, written bit by bit from R62 and R64 (every operand bit pattern distinct). -/
theorem test_decode_bus :
    decode 0b00000001_10100101_00111100_00000000_00000000_00000000_00000000_00000000_00000000_00000000 =
      .ok (.wrreg 0xA5 0x3C) ∧
    decode 0b00000010_10100101_00000000_00000000_00000000_00000000_00000000_00000000_00000000_00000000 =
      .ok (.rdreg 0xA5) ∧
    decode 0b00000011_10100101_00000111_00000001_00000010_00000011_00000100_00000101_00000110_10000111 =
      .ok (.wrburst 0xA5 [1, 2, 3, 4, 5, 6, 0x87]) := by decide

theorem test_decode_codec :
    decode 0b00010000_10010110_00000000_00000000_00000000_00000000_00000000_00000000_00000000_00000000 =
      .ok (.bcd2dec 0x96) ∧
    decode 0b00010001_10010110_00000000_00000000_00000000_00000000_00000000_00000000_00000000_00000000 =
      .ok (.dec2bcd 0x96) := by decide

theorem test_decode_getters :
    decode 0x20000000000000000000 = .ok .getsec ∧ decode 0x21000000000000000000 = .ok .getmin ∧
    decode 0x22000000000000000000 = .ok .gethour ∧ decode 0x23000000000000000000 = .ok .getday ∧
    decode 0x24000000000000000000 = .ok .getdate ∧ decode 0x25000000000000000000 = .ok .getmonth ∧
    decode 0x26000000000000000000 = .ok .getyear := by decide

theorem test_decode_setter :
    decode 0b00110000_10000000_00000001_00000010_00000011_00000100_00000101_00000110_00000111_11111111 =
      .ok (.setdt 0x8001 2 3 4 5 6 7) := by decide

/-- B9 and W1, the other way. -/
theorem test_encode_examples :
    encode (.wrburst 0x04 [0x15, 0x03, 0x24]) = 0x03040315032400000000 ∧
    encode (.setdt 2024 3 15 5 9 30 0) = 0x3007E8030F05091E0000 := by decide

/-- The first step after reset runs the word placed, whatever the chip answers (one word a row). -/
theorem test_first_step_after_reset :
    [0x01014600000000000000, 0x02010000000000000000, 0x03040315032400000000, 0x10450000000000000000,
     0x113B0000000000000000, 0x20000000000000000000, 0x21000000000000000000, 0x22000000000000000000,
     0x23000000000000000000, 0x24000000000000000000, 0x25000000000000000000, 0x26000000000000000000,
     0x3007E8030F05091E0000].all (fun w => (decodeTableWord 80 w).isSome && isNext (run State.reset w)) = true := by
  decide

/-! ### Bus primitives (section 3.1) -/

/-- B1. -/
theorem test_wrreg_stores : seen (run (ref []) 0x01014600000000000000) =
    some ([0x00000000], [⟨.tWrite 0x68 [0x01, 0x46], .ok []⟩], [(0x01, 0x46)]) := by decide

/-- B4. -/
theorem test_wrreg_fails : seen (run (chip [some (.fail 0x07)]) 0x01069900000000000000) =
    some ([0x01070000], [⟨.tWrite 0x68 [0x06, 0x99], .fail 0x07⟩], []) := by decide

/-- B6: the raw byte. -/
theorem test_rdreg_raw_byte : seen (run (ref [(0x06, 0xFF)]) 0x02060000000000000000) =
    some ([0x000000FF], [⟨.tWriteRead 0x68 0x06 1, .ok [0xFF]⟩], [(0x06, 0xFF)]) := by decide

/-- B8. -/
theorem test_rdreg_fails : seen (run (refScript [(0x02, 0x12)] (.fail 0xA5)) 0x02020000000000000000) =
    some ([0x01A50000], [⟨.tWriteRead 0x68 0x02 1, .fail 0xA5⟩], [(0x02, 0x12)]) := by decide

/-- B9: three registers in one request. -/
theorem test_wrburst_stores : seen (run (ref []) 0x03040315032400000000) =
    some ([0x00000000], [⟨.tWrite 0x68 [0x04, 0x15, 0x03, 0x24], .ok []⟩],
      [(0x04, 0x15), (0x05, 0x03), (0x06, 0x24)]) := by decide

/-- B14: `n = 8` is illegal, and nothing is asked of the transport. -/
theorem test_wrburst_illegal : seen (run (ref [(0x04, 0x01)]) 0x03040801020304050607) =
    some ([0x02000000], [], [(0x04, 0x01)]) := by decide

/-- R46: a burst that runs past 0x12 has no meaning under RefDev; R34: to the chip it is sent. -/
theorem test_burst_past_the_map :
    refusal (run (ref []) 0x03120201020000000000) = some .outsideRefDev ∧
    seen (run (chip [some (.ok [])]) 0x03120201020000000000) =
      some ([0x00000000], [⟨.tWrite 0x68 [0x12, 0x01, 0x02], .ok []⟩], []) := by decide

/-! ### Codec (section 3.2) -/

/-- K13 and K7: nibbles above 9 are used as they are. -/
theorem test_bcd2dec_top : seen (run State.reset 0x10FF0000000000000000) = some ([0x000000A5], [], []) := by decide
theorem test_bcd2dec_low_nibble : seen (run State.reset 0x100A0000000000000000) = some ([0x0000000A], [], []) := by decide

/-- K21. -/
theorem test_dec2bcd_top : seen (run State.reset 0x11630000000000000000) = some ([0x00000099], [], []) := by decide

/-- K22: status OK with the unspecified byte. -/
theorem test_dec2bcd_open : seen (run State.reset 0x11640000000000000000) =
    some ([rspWord 0x00 0x00 (zext16 (Config.encOOR 100))], [], []) := by rfl

/-! ### Getters (section 3.3) -/

/-- T2. -/
theorem test_getsec_clamps : (seen (run (ref [(0x00, 0x7F)]) 0x20000000000000000000)).map (·.1) =
    some [0x0000003B] := by decide
/-- T16. -/
theorem test_getsec_fails : (seen (run (chip [some (.fail 0xFF)]) 0x20000000000000000000)).map (·.1) =
    some [0x01FF0000] := by decide
/-- T3. -/
theorem test_getmin : (seen (run (ref [(0x01, 0x45)]) 0x21000000000000000000)).map (·.1) =
    some [0x0000002D] := by decide
/-- T4. -/
theorem test_gethour_clamps : (seen (run (ref [(0x02, 0x30)]) 0x22000000000000000000)).map (·.1) =
    some [0x00000017] := by decide
/-- T6. -/
theorem test_getday_raised : (seen (run (ref []) 0x23000000000000000000)).map (·.1) =
    some [0x00000001] := by decide
/-- T8. -/
theorem test_getdate_clamps : (seen (run (ref [(0x04, 0x32)]) 0x24000000000000000000)).map (·.1) =
    some [0x0000001F] := by decide
/-- T10: the high bit is not masked. -/
theorem test_getmonth_unmasked : (seen (run (ref [(0x05, 0x81)]) 0x25000000000000000000)).map (·.1) =
    some [0x0000000C] := by decide
/-- T12 and T14. -/
theorem test_getyear : (seen (run (ref [(0x06, 0x24)]) 0x26000000000000000000)).map (·.1) =
    some [0x000007E8] := by decide
theorem test_getyear_clamps : (seen (run (ref [(0x06, 0xFF)]) 0x26FFFFFFFFFFFFFFFFFF)).map (·.1) =
    some [0x00000833] := by decide

/-! ### Setter (section 3.4) -/

/-- W3. -/
theorem test_setdt_highest : seen (run (ref []) 0x3008330C1F07173B3B00) =
    some ([0x00000000], [⟨.tWrite 0x68 [0x00, 0x59, 0x59, 0x23, 0x07, 0x31, 0x12, 0x99], .ok []⟩],
      [(0, 0x59), (1, 0x59), (2, 0x23), (3, 0x07), (4, 0x31), (5, 0x12), (6, 0x99)]) := by decide

/-- W8: no wrap modulo 256 of `year - 2000`. -/
theorem test_setdt_year_not_wrapped : seen (run (chip [some (.ok [])]) 0x3008D001010500000000) =
    some ([0x00000000], [⟨.tWrite 0x68 [0x00, 0x00, 0x00, 0x00, 0x05, 0x01, 0x01, Config.encOOR 256], .ok []⟩], []) := by
  rfl

/-! ### Steps that are no command -/

/-- R188: no answer, so no response, and then no step; a reset ends it. -/
theorem test_silence_and_reset :
    faultOf (step { chip [] with inProgress := some ⟨.getsec, .tWriteRead 0x68 0x00 1⟩ }) = some .transportSilent ∧
    isNext (step { chip [] with inProgress := some ⟨.getsec, .tWriteRead 0x68 0x00 1⟩, resetLine := true }) = true := by
  decide

/-- R181: a read that a reset abandoned opens the register it addressed, and no other (`u` holds 0x07 in 0x03). -/
theorem test_abandoned_read_opens_its_register :
    let u : State := { ref [(0x03, 0x07)] with inProgress := some ⟨.rdreg 0x04, .tWriteRead 0x68 0x04 1⟩ }
    Memory.read u.resetBlock.mem 0x04 = Config.lostByte [] 0x04 ∧ Memory.read u.resetBlock.mem 0x03 = 0x07 :=
  ⟨Memory.read_writeBytes (m := [(0x03, 0x07)]) rfl 4 4 _, Memory.read_writeBytes (m := [(0x03, 0x07)]) rfl 4 3 _⟩

/-- P4 and P5: after a failed command the run is over, as a fault. -/
theorem test_failed_run_faults :
    faultOf (step { chip [] with stopped := some (.transportFailure 0x07) }) =
      some (.runFailed (.transportFailure 0x07)) := by decide

/-- R31: a read that brought the wrong number of bytes is a failure, with a code the spec does not give. -/
theorem test_malformed_read_fails :
    (chip [some (.ok [])]).replyTo (.tWriteRead 0x68 0x00 1) =
      .fail (Config.malformedError [] (.tWriteRead 0x68 0x00 1)) := by rfl

/-! ### The textual form (R72; section 4, P2) -/

/-- P2, step 2: `e <- DEC2BCD m + 1` with `m = 45`. -/
theorem test_assemble_with_variable :
    ((AsmLine.mk (some "e") .dec2bcd [.var "m" 1]).assemble [("m", 45)]).map encode = some 0x112E0000000000000000 := by
  decide
/-- P2, step 1: the response of `m <- BCD2DEC b` binds `m` to 45. -/
theorem test_bind_response :
    (AsmLine.mk (some "m") .bcd2dec [.var "b" 0]).bindResponse [("b", 0x45)] 0x0000002D = [("m", 45), ("b", 0x45)] := by
  decide
/-- P4, step 1: `mi <- GETMIN` that failed leaves `mi` unbound. -/
theorem test_failed_response_binds_nothing :
    (AsmLine.mk (some "mi") .getmin []).bindResponse [("s", 12)] 0x01070000 = [("s", 12)] := by decide
/-- A value that does not fit its field, or is below zero, is no operand (R63). -/
theorem test_assemble_range :
    (AsmLine.mk none .dec2bcd [.num 256]).assemble [] = none ∧
    (AsmLine.mk none .dec2bcd [.var "m" (-1)]).assemble [("m", 0)] = none := by decide
/-- R73: `writeRegister(register, byte)` is `WRREG register, byte`, and an unknown name is no command. -/
theorem test_doc00_alias :
    (AsmLine.named none "writeRegister" [.num 0x01, .num 0x46]).bind (AsmLine.assemble []) = some (.wrreg 0x01 0x46) ∧
    AsmLine.named none "WRREG" [.num 0x01, .num 0x46] = AsmLine.named none "writeRegister" [.num 0x01, .num 0x46] ∧
    Mnemonic.ofName "temperature" = none := by decide
/-- R72's own example. -/
theorem test_text : asmText (.setdt 2024 3 15 5 9 30 0) = "SETDT 2024, 3, 15, 5, 9, 30, 0" := by decide

/-! ### Witnesses: a concrete state and operands that meet all hypotheses of a statement, one clause at a time -/

/-- A host that presents one word. -/
def presenting (s : State) (w : CmdWord) : State := { s with program := [w] }

/-- WRREG and its request, used below. -/
def wrMinute : Instr := .wrreg 0x01 0x46
def wrMinuteRequest : Request := .tWrite 0x68 [0x01, 0x46]

theorem witness_DecodeEncodeRoundTrip :
    (Instr.wrburst 0x04 [9]).WellFormed ∧ (Instr.wrburst 0x04 [1, 2, 3, 4, 5, 6, 7]).WellFormed ∧
    Instr.getsec.WellFormed := by decide

theorem witness_IgnoredBitsPlayNoPart :
    decode 0x0201FFFFFFFFFFFFFFFF = .ok (.rdreg 0x01) ∧
    (0x02010000000000000000 : CmdWord) >>> (80 - (Instr.rdreg 0x01).usedBits) =
      (0x0201FFFFFFFFFFFFFFFF : CmdWord) >>> (80 - (Instr.rdreg 0x01).usedBits) := by decide

theorem witness_DecodedCommandIsWellFormed : decode 0x03040101000000000000 = .ok (.wrburst 0x04 [1]) := by decide

/-- Both ends of each range of R68. -/
theorem witness_UndefinedOp : ∀ op ∈ [0x00, 0x04, 0x0F, 0x12, 0x1F, 0x27, 0x2F, 0x31, 0xFF], Claims.UndefinedOp op := by
  unfold Claims.UndefinedOp; decide

/-- The defined opcodes beside those ends are not among them. -/
theorem witness_defined_op : ∀ op ∈ [0x01, 0x03, 0x10, 0x11, 0x20, 0x26, 0x30], ¬ Claims.UndefinedOp op := by
  unfold Claims.UndefinedOp; decide

theorem witness_UndefinedOpcodeIsIllegal :
    let s := presenting (chip []) 0x04000000000000000000
    s.Ready ∧ s.program[s.seq]? = some 0x04000000000000000000 ∧
    (0x04000000000000000000 : CmdWord).extractLsb 79 72 = 0x04#8 := ⟨⟨rfl, rfl, rfl⟩, rfl, by decide⟩

theorem witness_UndefinedOpcodeIsIllegal_zero_and_ones :
    (presenting (chip []) 0).Ready ∧ (presenting (chip []) 0).program[0]? = some 0 ∧
    (presenting (chip []) (BitVec.allOnes 80)).Ready ∧
    (presenting (chip []) (BitVec.allOnes 80)).program[0]? = some (BitVec.allOnes 80) :=
  ⟨⟨rfl, rfl, rfl⟩, rfl, ⟨rfl, rfl, rfl⟩, rfl⟩

/-- `n` 0, 8 and 255: illegal. -/
theorem witness_BurstCountIsTheOneOperandCheck :
    (presenting (chip []) 0x03040000000000000000).Ready ∧
    (presenting (chip []) 0x03040000000000000000).program[0]? = some 0x03040000000000000000 ∧
    (0x03040000000000000000 : CmdWord).extractLsb 79 72 = 0x03#8 ∧
    ((0x03040000000000000000 : CmdWord).extractLsb 63 56).toNat = 0 ∧
    7 < ((0x03040800000000000000 : CmdWord).extractLsb 63 56).toNat ∧
    7 < ((0x0304FF00000000000000 : CmdWord).extractLsb 63 56).toNat :=
  ⟨⟨rfl, rfl, rfl⟩, rfl, by decide, by decide, by decide, by decide⟩

/-- `n` 1 and 7, and a word of another row: legal. -/
theorem witness_BurstCountIsTheOneOperandCheck_legal :
    (0x03040100000000000000 : CmdWord).extractLsb 79 72 = 0x03#8 ∧
    ((0x03040100000000000000 : CmdWord).extractLsb 63 56).toNat = 1 ∧
    ((0x03040700000000000000 : CmdWord).extractLsb 63 56).toNat = 7 ∧
    (0x02FFFF00000000000000 : CmdWord).extractLsb 79 72 = 0x02#8 := by decide

theorem witness_AssembledLineIsTheCommand : (Instr.setdt 65535 255 0 0 0 0 0).WellFormed := by decide

theorem witness_StepRunsDecodedCommand :
    let s := presenting (chip []) 0x10450000000000000000
    s.Ready ∧ s.program[s.seq]? = some 0x10450000000000000000 ∧ decode 0x10450000000000000000 = .ok (.bcd2dec 0x45) :=
  ⟨⟨rfl, rfl, rfl⟩, rfl, rfl⟩

theorem witness_PlacedWordRunsNext :
    decodeTableWord 80 0x02010000000000000000 = some (.rdreg 0x01) := by decide

/-- At the end of the program, and an `OK` and a not `OK` response. -/
theorem witness_HostIndexCountsOkResponses :
    State.reset.Ready ∧ State.reset.program.length ≤ State.reset.seq ∧
    (presenting (chip []) 0x10450000000000000000).Ready ∧
    (∃ t, step (presenting (chip []) 0x10450000000000000000) = .next t ∧ t.responses = [0x0000002D] ∧
      rspStatus 0x0000002D = 0x00) ∧
    (∃ t, step (presenting (chip []) 0) = .next t ∧ t.responses = [0x02000000] ∧ rspStatus 0x02000000 ≠ 0x00) :=
  ⟨⟨rfl, rfl, rfl⟩, by decide, ⟨rfl, rfl, rfl⟩, ⟨_, rfl, by decide, by decide⟩, ⟨_, rfl, by decide, by decide⟩⟩

theorem witness_FinalRunStaysAsItIs : State.reset.Ready ∧ State.reset.Final := ⟨⟨rfl, rfl, rfl⟩, rfl, rfl, rfl⟩

/-- A `FAIL` response (P4) and an `ILLEGAL` one (P5). -/
theorem witness_RunEndsAtFirstFailure :
    let s := presenting (chip [some (.fail 0x07)]) (encode wrMinute)
    s.Ready ∧ (∃ t, step s = .next t ∧ t.responses = [0x01070000]) ∧ rspStatus 0x01070000 ≠ 0x00 ∧
    (presenting (chip []) 0).Ready ∧ (∃ t, step (presenting (chip []) 0) = .next t ∧ t.responses = [0x02000000]) ∧
    rspStatus 0x02000000 ≠ 0x00 :=
  ⟨⟨rfl, rfl, rfl⟩, ⟨_, rfl, by decide⟩, by decide, ⟨rfl, rfl, rfl⟩, ⟨_, rfl, by decide⟩, by decide⟩

theorem witness_UnansweredRequestHoldsTheBlock :
    let s := presenting (chip [some .noAnswer]) 0x01014600000000000000
    s.Ready ∧ s.program[s.seq]? = some 0x01014600000000000000 ∧ decode 0x01014600000000000000 = .ok wrMinute ∧
    busRequest s.regMap wrMinute = some wrMinuteRequest ∧ s.sendable wrMinuteRequest = true ∧
    s.replyTo wrMinuteRequest = .noAnswer := ⟨⟨rfl, rfl, rfl⟩, rfl, rfl, rfl, rfl, rfl⟩

/-- Idle, and while a burst into 0x04 and 0x05, or a read of 0x04, is unanswered: the registers beside are not addressed. -/
theorem witness_ResetAbandonsTheCommand :
    let c : InFlight := ⟨.wrburst 0x04 [1, 2], .tWrite 0x68 [0x04, 1, 2]⟩
    let r : InFlight := ⟨.rdreg 0x04, .tWriteRead 0x68 0x04 1⟩
    let s := { ref [(0x03, 0x07)] with resetLine := true }
    let u := { s with inProgress := some c }
    s.resetLine = true ∧ Memory.wf s.mem = true ∧ s.inProgress = none ∧
    u.resetLine = true ∧ Memory.wf u.mem = true ∧ u.inProgress = some c ∧
    ¬ Claims.addresses c.request 0x03 ∧ ¬ Claims.addresses c.request 0x06 ∧
    ({ u with inProgress := some r }).inProgress = some r ∧
    ¬ Claims.addresses r.request 0x03 ∧ Claims.addresses r.request 0x04 ∧ ¬ Claims.addresses r.request 0x05 :=
  ⟨rfl, rfl, rfl, rfl, rfl, rfl, by unfold Claims.addresses; decide, by unfold Claims.addresses; decide, rfl,
   by unfold Claims.addresses; decide, by unfold Claims.addresses; decide, by unfold Claims.addresses; decide⟩

/-- In this one state the request can be made, and gets this answer. -/
abbrev Answered (s : State) (q : Request) (r : Reply) : Prop := s.sendable q = true ∧ s.replyTo q = r

/-- The two answers, with the chip and with RefDev, up to RefDev's last register. -/
theorem witness_WrregWritesOneByte :
    Memory.wf (ref []).mem = true ∧ Answered (ref []) (.tWrite 0x68 [0x12, 0x46]) (.ok []) ∧
    Memory.wf (chip []).mem = true ∧ Answered (chip [some (.ok [])]) (.tWrite 0x68 [0xFF, 0x46]) (.ok []) ∧
    Answered (refScript [] (.fail 0x07)) (.tWrite 0x68 [0x12, 0x46]) (.fail 0x07) := by decide

theorem witness_RdregReturnsTheByte :
    Answered (ref [(0x12, 0xFF)]) (.tWriteRead 0x68 0x12 1) (.ok [0xFF]) ∧
    Answered (chip [some (.fail 0x00)]) (.tWriteRead 0x68 0xFF 1) (.fail 0x00) := by decide

/-- One and seven bytes are sent; none and eight are illegal. -/
theorem witness_WrburstWritesItsBytes :
    Memory.wf (ref []).mem = true ∧ Answered (ref []) (.tWrite 0x68 [0x12, 9]) (.ok []) ∧
    Answered (ref []) (.tWrite 0x68 [0x0C, 1, 2, 3, 4, 5, 6, 7]) (.ok []) ∧
    Answered (refScript [] (.fail 0x01)) (.tWrite 0x68 [0x0C, 1, 2, 3, 4, 5, 6, 7]) (.fail 0x01) ∧
    1 ≤ [9].length ∧ [1, 2, 3, 4, 5, 6, 7].length ≤ 7 ∧ ([] : List Byte).length = 0 ∧
    7 < [1, 2, 3, 4, 5, 6, 7, 8].length := by decide

theorem witness_Dec2bcdEncodesOrIsOpen :
    (99 : Byte).toNat ≤ 99 ∧ 99 < (100 : Byte).toNat ∧ 99 < (255 : Byte).toNat := by decide

/-- A read of one register, answered with a byte and with a failure. -/
def byteRead (reg : Byte) (b : Byte) : Prop :=
  Answered (chip [some (.ok [b])]) (.tWriteRead 0x68 reg 1) (.ok [b]) ∧
  Answered (ref [(reg.toNat, b)]) (.tWriteRead 0x68 reg 1) (.ok [b]) ∧
  Answered (refScript [] (.fail 0x02)) (.tWriteRead 0x68 reg 1) (.fail 0x02)

/-- The first byte beyond each upper bound, by R101 (60, 60, 24). -/
theorem witness_TimeGettersClampFromAbove :
    byteRead Config.regMapDefault.second 0x5A ∧ byteRead Config.regMapDefault.minute 0x60 ∧
    byteRead Config.regMapDefault.hour 0x24 := by unfold byteRead; decide

/-- The bytes at and beyond the upper bounds (7, 31, 13), and a zero byte, which is raised to 1. -/
theorem witness_DateGettersClampOnBothSides :
    byteRead Config.regMapDefault.day 0x07 ∧ byteRead Config.regMapDefault.date 0x31 ∧
    byteRead Config.regMapDefault.month 0x13 ∧ Answered (ref []) (.tWriteRead 0x68 0x03 1) (.ok [0x00]) := by
  unfold byteRead; decide

theorem witness_YearGetterAddsTheCentury : byteRead Config.regMapDefault.year 0x9A := by unfold byteRead; decide

/-- In contract and out of it (W8: year 2256), answered `Ok` and `Fail`. -/
theorem witness_SetdtSendsOneBurst :
    let q (year : Int) : Request := .tWrite 0x68 [(ref []).regMap.second, enc (59 : Byte).toNat, enc (59 : Byte).toNat,
      enc (23 : Byte).toNat, enc (7 : Byte).toNat, enc (31 : Byte).toNat, enc (12 : Byte).toNat, enc (year - 2000)]
    Memory.wf (ref []).mem = true ∧ Answered (ref []) (q (2099#16).toNat) (.ok []) ∧
    Answered (ref []) (q (2256#16).toNat) (.ok []) ∧
    Answered (refScript [] (.fail 0x03)) (q (2099#16).toNat) (.fail 0x03) :=
  ⟨rfl, ⟨rfl, rfl⟩, ⟨rfl, rfl⟩, ⟨rfl, rfl⟩⟩

/-- The lowest and the highest date-time value (W2, W3: their bytes are the spec's). -/
theorem witness_SetdtInContractSendsDigits :
    Instr.inContract (.setdt 2000 1 1 1 0 0 0) = true ∧
    (ref []).sendable (.tWrite 0x68 [0x00, 0x00, 0x00, 0x00, 0x01, 0x01, 0x01, 0x00]) = true ∧
    (∃ t, exec (.setdt 2000 1 1 1 0 0 0) (ref []) = .next t) ∧
    Instr.inContract (.setdt 2099 12 31 7 23 59 59) = true ∧
    (ref []).sendable (.tWrite 0x68 [0x00, 0x59, 0x59, 0x23, 0x07, 0x31, 0x12, 0x99]) = true ∧
    (∃ t, exec (.setdt 2099 12 31 7 23 59 59) (ref []) = .next t) := ⟨rfl, rfl, ⟨_, rfl⟩, rfl, rfl, ⟨_, rfl⟩⟩

theorem witness_RoundTripFromByte : (BitVec.extractLsb 7 4 (0x99 : Byte)).toNat ≤ 9 ∧
    (BitVec.extractLsb 3 0 (0x99 : Byte)).toNat ≤ 9 := by decide

theorem witness_RoundTripFromNumber : 0 ≤ 99 ∧ 99 ≤ 99 := by decide

theorem witness_EncodedImage : 98 < 99 ∧ 99 ≤ 99 ∧ validBcd 0x99 = true := by decide

theorem witness_DecodedImage : validBcd 0x00 = true ∧ validBcd 0x99 = true ∧ dec 0x45 = dec 0x45 := by decide

/-- 0x0A and 0x8F come back as another byte; 0x9A and 0xFF leave the contract; 0xEF shares its number, 0xFA does not. -/
theorem witness_RoundTripFailsOutsideBcd :
    (∀ b ∈ [(0x0A : Byte), 0x8F], 10 ≤ (b.extractLsb 3 0).toNat ∧ dec b ≤ 99) ∧
    (∀ b ∈ [(0x9A : Byte), 0xFF], 100 ≤ dec b) ∧
    (∀ b ∈ [(0xEF : Byte), 0xFA], 10 ≤ (b.extractLsb 3 0).toNat) ∧ dec 0xEF = dec 0xF5 := by decide

/-- Each getter answered `OK`, at the bound it clamps to. -/
theorem witness_ClampLaws :
    (∃ t, exec .getmonth (chip [some (.ok [0x13])]) = .next t ∧ t.responses = [rspWord 0x00 0x00 12]) ∧
    (∃ t, exec .getdate (chip [some (.ok [0x32])]) = .next t ∧ t.responses = [rspWord 0x00 0x00 31]) ∧
    (∃ t, exec .getday (chip [some (.ok [0x00])]) = .next t ∧ t.responses = [rspWord 0x00 0x00 1]) ∧
    (∃ t, exec .gethour (chip [some (.ok [0x30])]) = .next t ∧ t.responses = [rspWord 0x00 0x00 23]) ∧
    (∃ t, exec .getmin (chip [some (.ok [0x60])]) = .next t ∧ t.responses = [rspWord 0x00 0x00 59]) ∧
    (∃ t, exec .getsec (chip [some (.ok [0x00])]) = .next t ∧ t.responses = [rspWord 0x00 0x00 0]) ∧
    (∃ t, exec .getyear (chip [some (.ok [0xFF])]) = .next t ∧ t.responses = [rspWord 0x00 0x00 2099]) :=
  ⟨⟨_, rfl, by decide⟩, ⟨_, rfl, by decide⟩, ⟨_, rfl, by decide⟩, ⟨_, rfl, by decide⟩, ⟨_, rfl, by decide⟩,
   ⟨_, rfl, by decide⟩, ⟨_, rfl, by decide⟩⟩

/-- A command with a request and one without, and one that is not answered. -/
theorem witness_AtMostOneRequestPerCommand :
    (∃ t, exec wrMinute (ref []) = .next t) ∧ (∃ t, exec (.bcd2dec 0x45) (ref []) = .next t) := ⟨⟨_, rfl⟩, ⟨_, rfl⟩⟩

theorem witness_OneResponsePerCommand :
    (∃ t, exec (.dec2bcd 59) (chip []) = .next t) ∧ (∃ t, exec .getsec (chip [some .noAnswer]) = .next t) :=
  ⟨⟨_, rfl⟩, ⟨_, rfl⟩⟩

theorem witness_TransportFailurePropagates :
    busRequest (ref []).regMap wrMinute = some wrMinuteRequest ∧
    (refScript [] (.fail 0x07)).sendable wrMinuteRequest = true ∧
    (refScript [] (.fail 0x07)).replyTo wrMinuteRequest = .fail 0x07 ∧
    (∃ t, exec wrMinute (refScript [] (.fail 0x07)) = .next t ∧ t.responses = [0x01070000]) ∧
    rspStatus 0x01070000 = 0x01 := ⟨rfl, rfl, rfl, ⟨_, rfl, by decide⟩, by decide⟩

/-- A failed read, and an unanswered write. -/
theorem witness_UnservedRequestStoresNothing :
    busRequest (ref []).regMap (.rdreg 0x02) = some (.tWriteRead 0x68 0x02 1) ∧
    (∃ t, exec (.rdreg 0x02) (refScript [(0x02, 0x12)] (.fail 0xA5)) = .next t) ∧
    (refScript [(0x02, 0x12)] (.fail 0xA5)).replyTo (.tWriteRead 0x68 0x02 1) = .fail 0xA5 ∧
    busRequest (ref []).regMap wrMinute = some wrMinuteRequest ∧
    (∃ t, exec wrMinute (refScript [] .noAnswer) = .next t) ∧
    (refScript [] .noAnswer).replyTo wrMinuteRequest = .noAnswer := ⟨rfl, ⟨_, rfl⟩, rfl, rfl, ⟨_, rfl⟩, rfl⟩

/-- A command without a request, and one whose request is answered. -/
theorem witness_NothingElseRaises :
    (Instr.dec2bcd 255).WellFormed ∧ busRequest (ref []).regMap (.dec2bcd 255) = none ∧ wrMinute.WellFormed ∧
    (∀ q, busRequest (ref []).regMap wrMinute = some q →
      (ref []).sendable q = true ∧ ∃ data, (ref []).replyTo q = .ok data) := by
  refine ⟨rfl, rfl, rfl, fun q h => ?_⟩
  cases h
  exact ⟨rfl, [], rfl⟩

/-- Both sides of the equivalence hold of one state. -/
theorem witness_OnlyRefDevRefuses :
    refusal (exec (.rdreg 0x13) (ref [])) = some .outsideRefDev ∧
    busRequest (ref []).regMap (.rdreg 0x13) = some (.tWriteRead 0x68 0x13 1) ∧
    RefDev.accepts (.tWriteRead 0x68 0x13 1) = false ∧ isNext (exec (.rdreg 0x13) (chip [some (.ok [0])])) = true := by
  decide

/-- The last register of RefDev's map, and the first beyond it. -/
theorem witness_RefDevMapBounds :
    RefDev.accepts (.tWriteRead 0x68 0x12 1) = true ∧ RefDev.accepts (.tWriteRead 0x68 0x13 1) = false ∧
    RefDev.accepts (.tWrite 0x68 [0x11, 1, 2]) = true ∧ RefDev.accepts (.tWrite 0x68 [0x12, 1, 2]) = false := by decide

theorem witness_WrregIsBurstOfOne :
    (ref []).replyTo wrMinuteRequest ≠ .noAnswer ∧ (refScript [] (.fail 1)).replyTo wrMinuteRequest ≠ .noAnswer := by
  decide

theorem witness_OnlyTheDeviceIsAddressed :
    ∃ t, step (presenting (ref []) (encode wrMinute)) = .next t ∧ t.history = [⟨wrMinuteRequest, .ok []⟩] :=
  ⟨_, rfl, by decide⟩

/-- Two states that differ in what an earlier command left. -/
theorem witness_NothingIsKeptBetweenCommands :
    let s := ref []
    let u := { ref [] with seq := 7, stopped := some .illegalCommand, responses := [0x02000000] }
    s.regMap = u.regMap ∧ s.history = u.history ∧ s.script = u.script ∧ s.device = u.device ∧ s.mem = u.mem ∧
    (∃ t, exec wrMinute s = .next t) ∧ (∃ t, exec wrMinute u = .next t) :=
  ⟨rfl, rfl, rfl, rfl, rfl, ⟨_, rfl⟩, ⟨_, rfl⟩⟩

theorem witness_RefDevReturnsTheByteWritten :
    (ref []).device = .refDev ∧ (ref []).script = [] ∧ Memory.wf (ref []).mem = true ∧ (0x12 : Byte).toNat ≤ 0x12 := by
  decide

theorem witness_SetTimeReadsBack :
    (ref []).device = .refDev ∧ (ref []).script = [] ∧ Memory.wf (ref []).mem = true ∧ (ref []).regMap.WellFormed ∧
    Instr.inContract (.setdt 2000 1 1 1 0 0 0) = true ∧ Instr.inContract (.setdt 2099 12 31 7 23 59 59) = true := by
  decide

/-- RefDev with a byte in its last register, while a request is unanswered and a reset is asked for. -/
def unanswered : State :=
  { ref [(0x12, 0x01)] with
    inProgress := some ⟨wrMinute, wrMinuteRequest⟩
    history := [⟨wrMinuteRequest, .noAnswer⟩]
    resetLine := true }

theorem witness_StepKeepsTheInvariant :
    unanswered.Inv ∧ step unanswered = .next unanswered.resetBlock := by
  refine ⟨⟨by decide, by decide, by decide, by decide, by decide, fun _ h => (List.not_mem_nil h).elim, by decide, by decide, ?_⟩, ?_⟩
  · intro c h
    cases h
    rfl
  · rw [step, if_pos (show unanswered.resetLine = true from rfl)]

/-- A read answered with the right and with a wrong number of bytes, and a write whose `Ok` came with data. -/
theorem witness_WrongLengthReadIsAFailure :
    (chip [some (.ok [7])]).rawReply (.tWriteRead 0x68 0x00 1) = .ok [7] ∧ [7].length = 1 ∧
    (chip [some (.ok [7])]).replyTo (.tWriteRead 0x68 0x00 1) = .ok [7] ∧
    (chip [some (.ok [])]).rawReply (.tWriteRead 0x68 0x00 1) = .ok [] ∧ ([] : List Byte).length ≠ 1 ∧
    (chip [some (.ok [1, 2])]).rawReply (.tWriteRead 0x68 0x00 1) = .ok [1, 2] ∧ [1, 2].length ≠ 1 ∧
    (chip [some (.ok [7])]).replyTo wrMinuteRequest = .ok [] := by decide

/-- A line with a variable; the statuses OK and FAIL. -/
theorem witness_OnlyOkResponsesBindAVariable :
    (AsmLine.mk (some "m") .getmin []).bind = some "m" ∧ statusOk = 0x00 ∧ statusFail ≠ 0x00 := by decide

/-- One of DOC00's private primitives and one of its public operations. -/
theorem witness_EveryOperationIsACommand :
    let s := presenting (chip []) (encode wrMinute)
    wrMinute.WellFormed ∧ wrMinute.mnemonic = .wrreg ∧ s.Ready ∧ s.device = .chip ∧
    s.program[s.seq]? = some (encode wrMinute) ∧
    Instr.getsec.WellFormed ∧ Instr.getsec.mnemonic = .getsec ∧ (presenting (chip []) (encode .getsec)).Ready ∧
    (presenting (chip []) (encode .getsec)).program[0]? = some (encode .getsec) :=
  ⟨rfl, rfl, ⟨rfl, rfl, rfl⟩, rfl, rfl, rfl, rfl, ⟨rfl, rfl, rfl⟩, rfl⟩

end Sys2Proof.Tests
end

/-! SUPPORT. The rules of the state family's proofs: what a response word says, which requests a command makes, what a
step does in each case, and which operations keep the invariant. The theorems that settle the obligations are at the end. -/

namespace Sys2Proof.Machine

/-! ### Response words (R66) -/

@[simp] theorem rspStatus_rspWord (status err : Byte) (value : Value) : rspStatus (rspWord status err value) = status := by
  calc rspStatus (rspWord status err value)
      = (status ++ err).extractLsb' 8 8 := BitVec.extractLsb'_append_eq_of_le (by decide)
    _ = status := BitVec.extractLsb'_append_eq_left

@[simp] theorem rspErr_rspWord (status err : Byte) (value : Value) : rspErr (rspWord status err value) = err := by
  calc rspErr (rspWord status err value)
      = (status ++ err).extractLsb' 0 8 := BitVec.extractLsb'_append_eq_of_le (by decide)
    _ = err := BitVec.extractLsb'_append_eq_right

@[simp] theorem rspValue_rspWord (status err : Byte) (value : Value) : rspValue (rspWord status err value) = value :=
  BitVec.extractLsb'_append_eq_right

@[simp] theorem rspStatus_rspOk (v : Value) : rspStatus (rspOk v) = 0x00 := rspStatus_rspWord _ _ _

theorem rspStatus_failure_ne_ok (f : Failure) : rspStatus f.response ≠ 0x00 := by
  cases f <;> simp [Failure.response]

theorem rspLegal_rspOk (v : Value) : rspLegal (rspOk v) = true := by simp [rspLegal, rspOk]

theorem rspLegal_failure (f : Failure) : rspLegal f.response = true := by
  cases f <;> simp [rspLegal, Failure.response]

/-! ### The request of a command (R31, R35) -/

/-- Every request of R35's table has a shape of R31 and goes to 0x68 (R12). -/
theorem busRequest_legal {m : RegMap} {i : Instr} {q : Request} (h : busRequest m i = some q) :
    Request.legal q = true := by
  cases i <;> simp only [busRequest, Option.some.injEq, reduceCtorEq] at h
  case wrburst reg data =>
    split at h
    next hlen =>
      cases h
      simp only [Request.legal, List.length_cons, decide_true, Bool.true_and, Bool.and_eq_true, decide_eq_true_eq]
      omega
    next => cases h
  all_goals
    subst h
    rfl

theorem Request.busAddress_of_legal {q : Request} (h : Request.legal q = true) : Claims.busAddress q = 0x68 := by
  cases q <;> simp only [Request.legal, Bool.and_eq_true, decide_eq_true_eq] at h
  case tWrite => exact h.1.1
  case tWriteRead => exact h.1

/-- What a bus command makes of the data of its request's `Ok`: the byte (R91), the field (R120), or no value (R90, R92,
R140). A codec command has no request, and its entry here is never used. -/
def busValue : Instr → List Byte → Value
  | .rdreg _ => fun data => zext16 (readByte data)
  | .getsec => fun data => natValue (clampSecond (dec (readByte data)))
  | .getmin => fun data => natValue (clampMinute (dec (readByte data)))
  | .gethour => fun data => natValue (clampHour (dec (readByte data)))
  | .getday => fun data => natValue (clampDay (dec (readByte data)))
  | .getdate => fun data => natValue (clampDate (dec (readByte data)))
  | .getmonth => fun data => natValue (clampMonth (dec (readByte data)))
  | .getyear => fun data => natValue (clampYear (dec (readByte data)))
  | .wrreg _ _ | .wrburst _ _ | .setdt _ _ _ _ _ _ _ | .bcd2dec _ | .dec2bcd _ => noValue

/-- A bus command is the transaction of its request; the value it makes of the data does not depend on the state. -/
theorem exec_eq_transact {i : Instr} {s : State} {q : Request} (h : busRequest s.regMap i = some q) :
    exec i s = s.transact i q (busValue i) := by
  cases i <;> simp only [busRequest, Option.some.injEq, reduceCtorEq] at h
  case wrburst reg data =>
    split at h
    next hlen =>
      cases h
      exact if_pos hlen
    next => cases h
  all_goals
    subst h
    rfl

/-- A command without a request gives one and the same answer in every state. -/
theorem exec_without_request {m : RegMap} {i : Instr} (h : busRequest m i = none) :
    (∃ v, ∀ s, exec i s = .next (s.respond v)) ∨ (∀ s, exec i s = .next (s.raise .illegalCommand)) := by
  cases i <;> simp only [busRequest, reduceCtorEq] at h
  case bcd2dec b => exact .inl ⟨_, fun _ => rfl⟩
  case dec2bcd v => exact .inl ⟨_, fun _ => rfl⟩
  case wrburst reg data =>
    split at h
    next => cases h
    next hlen => exact .inr fun _ => if_neg hlen

/-! ### The cases of a step -/

/-- With a word presented that decodes, the step is the command (R11, R60). -/
theorem step_eq_exec {s : State} {w : CmdWord} {i : Instr} (hs : s.Ready) (hw : s.presented = some w)
    (hd : decode w = .ok i) : step s = exec i s := by
  obtain ⟨hreset, hidle, hrun⟩ := hs
  simp [step, hreset, hidle, hrun, hw, hd]

/-- At the end of the program the step changes nothing (log entry 15). -/
theorem step_at_end {s : State} (hs : s.Ready) (hp : s.presented = none) : step s = .next s := by
  obtain ⟨hreset, hidle, hrun⟩ := hs
  simp [step, hreset, hidle, hrun, hp]

theorem State.withFetchWord_ready (s : State) (nbits w : Nat) : (s.withFetchWord nbits w).Ready := ⟨rfl, rfl, rfl⟩

theorem decode_of_decodeTableWord {nbits w : Nat} {i : Instr} (h : decodeTableWord nbits w = some i) :
    decode (tableWord nbits w) = .ok i := by
  unfold decodeTableWord at h
  split at h
  next hd => exact hd.trans (congrArg _ (Option.some.inj h))
  next => cases h

/-! ### What a command leaves unchanged, and what it adds -/

theorem exec_untouched {i : Instr} {s t : State} (h : exec i s = .next t) : Claims.Untouched s t := by
  rcases exec_cases h with ⟨v, -, rfl⟩ | ⟨-, -, rfl⟩ | ⟨q, -, -, ⟨data, v, -, rfl⟩ | ⟨e, -, rfl⟩ | ⟨-, rfl⟩⟩ <;>
    exact ⟨rfl, rfl, rfl, rfl⟩

/-- A command adds at most the exchange of its own request to the history. -/
theorem exec_history {i : Instr} {s t : State} (h : exec i s = .next t) :
    t.history = s.history ∨ ∃ q r, busRequest s.regMap i = some q ∧ t.history = ⟨q, r⟩ :: s.history := by
  rcases exec_cases h with ⟨v, -, rfl⟩ | ⟨-, -, rfl⟩ | ⟨q, hq, -, ⟨data, v, -, rfl⟩ | ⟨e, -, rfl⟩ | ⟨-, rfl⟩⟩
  · exact .inl rfl
  · exact .inl rfl
  all_goals exact .inr ⟨q, _, hq, rfl⟩

/-- The host's view of one step (R11, R160): an `OK` that is counted, a failure that ends the run, or no response. -/
def State.Answered (s t : State) : Prop :=
  (∃ v, t.responses = rspOk v :: s.responses ∧ t.seq = s.seq + 1 ∧ t.stopped = s.stopped) ∨
  (∃ f, t.responses = Failure.response f :: s.responses ∧ t.seq = s.seq ∧ t.stopped = some f) ∨
  t.responses = s.responses

theorem exec_answered {i : Instr} {s t : State} (h : exec i s = .next t) : s.Answered t := by
  rcases exec_cases h with ⟨v, -, rfl⟩ | ⟨-, -, rfl⟩ | ⟨q, -, -, ⟨data, v, -, rfl⟩ | ⟨e, -, rfl⟩ | ⟨-, rfl⟩⟩
  · exact .inl ⟨v, rfl, rfl, rfl⟩
  · exact .inr (.inl ⟨_, rfl, rfl, rfl⟩)
  · exact .inl ⟨v, rfl, rfl, rfl⟩
  · exact .inr (.inl ⟨_, rfl, rfl, rfl⟩)
  · exact .inr (.inr rfl)

theorem step_answered {s t : State} (h : step s = .next t) : s.Answered t := by
  rcases step_cases h with ⟨-, rfl⟩ | ⟨-, ⟨-, rfl⟩ | ⟨w, e, -, -, rfl⟩ | ⟨w, i, -, -, hexec⟩⟩
  · exact .inr (.inr rfl)
  · exact .inr (.inr rfl)
  · exact .inr (.inl ⟨_, rfl, rfl, rfl⟩)
  · exact exec_answered hexec

/-- The host's program and the register map are written by no step. -/
theorem step_program_regMap {s t : State} (h : step s = .next t) : t.program = s.program ∧ t.regMap = s.regMap := by
  rcases step_cases h with ⟨-, rfl⟩ | ⟨-, ⟨-, rfl⟩ | ⟨w, e, -, -, rfl⟩ | ⟨w, i, -, -, hexec⟩⟩
  · exact ⟨rfl, rfl⟩
  · exact ⟨rfl, rfl⟩
  · exact ⟨rfl, rfl⟩
  · obtain ⟨hmap, hprog, -, -⟩ := exec_untouched hexec
    exact ⟨hprog, hmap⟩

/-- A step makes at most one request, and that has a shape of R31. -/
theorem step_history {s t : State} (h : step s = .next t) :
    t.history = s.history ∨ ∃ x, t.history = x :: s.history ∧ Request.legal x.request = true := by
  rcases step_cases h with ⟨-, rfl⟩ | ⟨-, ⟨-, rfl⟩ | ⟨w, e, -, -, rfl⟩ | ⟨w, i, -, -, hexec⟩⟩
  · exact .inl rfl
  · exact .inl rfl
  · exact .inl rfl
  · exact (exec_history hexec).imp_right fun ⟨q, r, hq, ht⟩ => ⟨⟨q, r⟩, ht, busRequest_legal hq⟩

/-! ### Two runs that differ only in what earlier commands left -/

/-- The parts of two states that the transport and the device see are the same; the block's and the host's may differ. -/
structure State.SameTransport (s s' : State) : Prop where
  regMap  : s.regMap = s'.regMap
  history : s.history = s'.history
  script  : s.script = s'.script
  device  : s.device = s'.device
  mem     : s.mem = s'.mem

/-- From `s` to `t` and from `s'` to `t'` the same happened: to the transport, to the device, and as the response. -/
def State.SameEffect (s s' t t' : State) : Prop :=
  t.history = t'.history ∧ t.mem = t'.mem ∧ t.script = t'.script ∧
  ∀ r, t.responses = r :: s.responses ↔ t'.responses = r :: s'.responses

section SameTransport

variable {s s' : State}

theorem State.SameTransport.replyTo_eq (h : s.SameTransport s') (q : Request) : s.replyTo q = s'.replyTo q := by
  simp only [State.replyTo, State.rawReply, h.history, h.script, h.device, h.mem]

theorem State.SameTransport.onRefDev_eq (h : s.SameTransport s') (q : Request) : s.onRefDev q = s'.onRefDev q := by
  simp only [State.onRefDev, h.device]

theorem State.SameTransport.exchanged (h : s.SameTransport s') (q : Request) (r : Reply) :
    (s.exchanged q r).SameTransport (s'.exchanged q r) :=
  { h with
    history := congrArg (List.cons (⟨q, r⟩ : Exchange)) h.history
    script := congrArg List.tail h.script }

theorem State.SameTransport.stored (h : s.SameTransport s') (q : Request) :
    (s.stored q).SameTransport (s'.stored q) :=
  { h with mem := by rw [State.stored_mem, State.stored_mem, h.onRefDev_eq, h.mem] }

theorem State.SameTransport.lost (h : s.SameTransport s') (q : Request) : (s.lost q).SameTransport (s'.lost q) :=
  { h with mem := by rw [State.lost_mem, State.lost_mem, h.onRefDev_eq, h.mem, h.history] }

theorem State.SameTransport.respond (h : s.SameTransport s') (v : Value) :
    State.SameEffect s s' (s.respond v) (s'.respond v) :=
  ⟨h.history, h.mem, h.script, fun r => by simp⟩

theorem State.SameTransport.raise (h : s.SameTransport s') (f : Failure) :
    State.SameEffect s s' (s.raise f) (s'.raise f) :=
  ⟨h.history, h.mem, h.script, fun r => by simp⟩

theorem State.SameTransport.hold (h : s.SameTransport s') (i : Instr) (q : Request) :
    State.SameEffect s s' (s.hold i q) (s'.hold i q) :=
  ⟨h.history, h.mem, h.script, fun r => by simp⟩

theorem State.SameTransport.concluded (h : s.SameTransport s') (i : Instr) (q : Request) (k : List Byte → Value)
    (r : Reply) : State.SameEffect s s' (s.concluded i q k r) (s'.concluded i q k r) := by
  cases r with
  | ok data => exact ((h.exchanged q _).stored q).respond (k data)
  | fail e => exact ((h.exchanged q _).lost q).raise (.transportFailure e)
  | noAnswer => exact (h.exchanged q _).hold i q

theorem State.SameTransport.exec {i : Instr} {t t' : State} (h : s.SameTransport s')
    (ht : Machine.exec i s = .next t) (ht' : Machine.exec i s' = .next t') : State.SameEffect s s' t t' := by
  cases hq : busRequest s.regMap i with
  | none =>
    rcases exec_without_request hq with ⟨v, hv⟩ | hill
    · cases (hv s).symm.trans ht
      cases (hv s').symm.trans ht'
      exact h.respond v
    · cases (hill s).symm.trans ht
      cases (hill s').symm.trans ht'
      exact h.raise _
  | some q =>
    rw [exec_eq_transact hq] at ht
    rw [exec_eq_transact (h.regMap ▸ hq)] at ht'
    obtain ⟨hsend, -⟩ := State.transact_cases ht
    obtain ⟨hsend', -⟩ := State.transact_cases ht'
    cases (State.transact_next i (busValue i) hsend).symm.trans ht
    cases (State.transact_next i (busValue i) hsend').symm.trans ht'
    rw [h.replyTo_eq q]
    exact h.concluded i q _ _

end SameTransport

/-! ### The invariant, one rule per operation of the state -/

section Inv

variable {s : State}

/-- Between commands an exchange of R31's shapes may join the history. -/
theorem State.Inv.exchanged (h : s.Inv) (hidle : s.inProgress = none) {q : Request} {r : Reply}
    (hq : Request.legal q = true) (hr : Exchange.legal ⟨q, r⟩ = true) : (s.exchanged q r).Inv :=
  { h with
    requestsLegal := List.forall_mem_cons.mpr ⟨hq, h.requestsLegal⟩
    repliesLegal := List.forall_mem_cons.mpr ⟨hr, h.repliesLegal⟩
    outstanding := fun c hc => by cases hidle.symm.trans hc }

theorem State.Inv.stored (h : s.Inv) (q : Request) : (s.stored q).Inv :=
  { h with memWf := State.stored_wf h.memWf q, memMapped := State.stored_mapped h.memMapped q }

theorem State.Inv.lost (h : s.Inv) (q : Request) : (s.lost q).Inv :=
  { h with memWf := State.lost_wf h.memWf q, memMapped := State.lost_mapped h.memMapped q }

/-- A word was presented, so the host's index may go up by one. -/
theorem State.Inv.respond (h : s.Inv) (hseq : s.seq < s.program.length) (v : Value) : (s.respond v).Inv :=
  { h with
    responsesLegal := List.forall_mem_cons.mpr ⟨rspLegal_rspOk v, h.responsesLegal⟩
    counts := (congrArg (· + 1) h.counts).trans (Nat.add_right_comm _ _ _)
    seqBound := hseq }

theorem State.Inv.raise (h : s.Inv) (hrun : s.stopped = none) (f : Failure) : (s.raise f).Inv :=
  { h with
    responsesLegal := List.forall_mem_cons.mpr ⟨rspLegal_failure f, h.responsesLegal⟩
    counts := by simp [h.counts, hrun] }

theorem State.Inv.hold (h : s.Inv) (i : Instr) {q : Request} (hlast : s.history.head? = some ⟨q, .noAnswer⟩) :
    (s.hold i q).Inv :=
  { h with outstanding := fun c hc => by cases hc; exact hlast }

theorem State.resetBlock_mapped (h : Memory.mapped s.mem = true) : Memory.mapped s.resetBlock.mem = true := by
  cases hc : s.inProgress with
  | none => exact State.resetBlock_mem_idle hc ▸ h
  | some c => exact State.resetBlock_mem_busy hc ▸ State.abandoned_mapped h c.request

theorem State.Inv.resetBlock (h : s.Inv) : s.resetBlock.Inv :=
  { h with
    memWf := State.resetBlock_wf h.memWf
    memMapped := State.resetBlock_mapped h.memMapped
    outstanding := fun c hc => by cases hc }

/-- A command run on a word the host presented keeps the invariant. -/
theorem State.Inv.exec {i : Instr} {t : State} (h : s.Inv) (hs : s.Ready) (hseq : s.seq < s.program.length)
    (ht : Machine.exec i s = .next t) : t.Inv := by
  obtain ⟨-, hidle, hrun⟩ := hs
  rcases exec_cases ht with ⟨v, -, rfl⟩ | ⟨-, -, rfl⟩ | ⟨q, hq, -, hend⟩
  · exact h.respond hseq v
  · exact h.raise hrun _
  · have hlegal := State.replyTo_legal s q
    have hex : (s.exchanged q (s.replyTo q)).Inv := h.exchanged hidle (busRequest_legal hq) hlegal
    rcases hend with ⟨data, v, hr, rfl⟩ | ⟨e, hr, rfl⟩ | ⟨hr, rfl⟩ <;> rw [hr] at hex
    · exact (hex.stored q).respond hseq v
    · exact (hex.lost q).raise hrun _
    · exact hex.hold i rfl

theorem State.Inv.step {t : State} (h : s.Inv) (ht : Machine.step s = .next t) : t.Inv := by
  rcases step_cases ht with ⟨-, rfl⟩ | ⟨hs, ⟨-, rfl⟩ | ⟨w, e, -, -, rfl⟩ | ⟨w, i, hw, -, hexec⟩⟩
  · exact h.resetBlock
  · exact h
  · obtain ⟨-, -, hrun⟩ := hs
    exact h.raise hrun _
  · exact h.exec hs (List.getElem?_eq_some_iff.mp hw).1 hexec

end Inv

/-! ### The obligations -/

/-- Settles O46: each operation a step is made of keeps the invariant. -/
theorem stepKeepsTheInvariant : Obligations.StepKeepsTheInvariant :=
  fun _ _ h ht => h.step ht

/-- Settles O11: at the end no word is presented; else the status tells a counted response from one that ended the run. -/
theorem hostIndexCountsOkResponses : Obligations.HostIndexCountsOkResponses := by
  intro s hs
  refine ⟨fun hend => step_at_end hs (List.getElem?_eq_none hend), fun t r ht hr => ?_⟩
  obtain ⟨hprog, -⟩ := step_program_regMap ht
  obtain ⟨-, -, hready⟩ := hs
  refine ⟨hprog, ?_⟩
  rcases step_answered ht with ⟨v, hv, hseq, hrun⟩ | ⟨f, hf, hseq, hstop⟩ | hsame
  · obtain rfl : r = rspOk v := (List.cons.inj (hr.symm.trans hv)).1
    exact ⟨fun _ => ⟨hseq, hrun.trans hready⟩, fun hne => absurd (rspStatus_rspOk v) hne⟩
  · obtain rfl : r = f.response := (List.cons.inj (hr.symm.trans hf)).1
    exact ⟨fun hok => absurd hok (rspStatus_failure_ne_ok f), fun _ => ⟨hseq, by simp [hstop]⟩⟩
  · exact absurd (hsame.symm.trans hr).symm (List.cons_ne_self r s.responses)

/-- Settles O41: the one request a step may make is of R31's shapes, all of which go to 0x68. -/
theorem onlyTheDeviceIsAddressed : Obligations.OnlyTheDeviceIsAddressed := fun _ _ h =>
  ⟨(step_program_regMap h).2,
    (step_history h).imp_right fun ⟨x, hx, hlegal⟩ => ⟨x, hx, Request.busAddress_of_legal hlegal⟩⟩

/-- Settles O42: the command's request, its answer and its conclusion are functions of what the two states share. -/
theorem nothingIsKeptBetweenCommands : Obligations.NothingIsKeptBetweenCommands :=
  fun _ _ _ _ _ hmap hhist hscript hdev hmem ht ht' =>
    State.SameTransport.exec ⟨hmap, hhist, hscript, hdev, hmem⟩ ht ht'

/-- Settles O9: the presented word is `P[seq]`. -/
theorem stepRunsDecodedCommand : Obligations.StepRunsDecodedCommand :=
  fun _ _ _ hs hw hd => step_eq_exec hs hw hd

/-- Settles O10: the harness leaves a ready state that presents the word placed. -/
theorem placedWordRunsNext : Obligations.PlacedWordRunsNext := fun s nbits w _ h =>
  step_eq_exec (s.withFetchWord_ready nbits w) (s.withFetchWord_presented nbits w) (decode_of_decodeTableWord h)

/-- Settles O16: the fields of the reset state, read off. -/
theorem resetStateValues : Obligations.ResetStateValues := ⟨rfl, rfl, rfl, rfl, rfl, rfl⟩

/-- Settles O45: the histories are empty and the default map is well-formed. -/
theorem resetMeetsTheInvariant : Obligations.ResetMeetsTheInvariant where
  memWf := State.reset_mem_wf
  memMapped := rfl
  mapWf := by decide
  requestsLegal := List.forall_mem_nil _
  repliesLegal := List.forall_mem_nil _
  responsesLegal := List.forall_mem_nil _
  counts := rfl
  seqBound := Nat.le_refl 0
  outstanding := fun c hc => by cases hc

end Sys2Proof.Machine

/-! SUPPORT. The rules of the memory family's proofs: which requests RefDev takes and how it answers them, what the
transport makes of a read's answer, and how a bus command ends. The theorems that settle the obligations are at the end. -/

namespace Sys2Proof.Machine

/-! ### RefDev's map and its answers (R46) -/

/-- A read of one byte is within the map exactly if its pointer is. -/
theorem RefDev.accepts_read_iff (ptr : Byte) :
    RefDev.accepts (.tWriteRead 0x68 ptr 1) = true ↔ ptr.toNat ≤ 0x12 := by
  simp [RefDev.accepts]

/-- A write of at least one byte is within the map exactly if its last register is. -/
theorem RefDev.accepts_write_iff (ptr d : Byte) (ds : List Byte) :
    RefDev.accepts (.tWrite 0x68 (ptr :: d :: ds)) = true ↔ ptr.toNat + (d :: ds).length ≤ 0x12 + 1 := by
  simp [RefDev.accepts]

/-- RefDev's answer to a request within its map already has the shape R31 gives it. -/
theorem RefDev.reply_forRequest {q : Request} (hq : RefDev.accepts q = true) (h : List Exchange) (mem : Memory) :
    Reply.forRequest h q (RefDev.reply mem q) = RefDev.reply mem q := by
  cases q with
  | tWrite addr bytes => rfl
  | tWriteRead addr ptr m =>
    simp only [RefDev.accepts, Bool.and_eq_true, decide_eq_true_eq] at hq
    obtain ⟨⟨-, rfl⟩, -⟩ := hq
    rfl

/-- Where no answer is fixed beforehand, RefDev's own answer is what the block gets. -/
theorem State.replyTo_refDev {s : State} {q : Request} (hdev : s.device = .refDev) (hscript : s.script = [])
    (hq : RefDev.accepts q = true) : s.replyTo q = RefDev.reply s.mem q := by
  have hraw : s.rawReply q = RefDev.reply s.mem q := by simp [State.rawReply, hscript, hdev]
  rw [State.replyTo, hraw, RefDev.reply_forRequest hq]

/-- A request cannot be made only if RefDev stands behind the transport and it leaves RefDev's map (R34, R46). -/
theorem State.sendable_eq_false_iff {s : State} {q : Request} :
    s.sendable q = false ↔ s.device = .refDev ∧ RefDev.accepts q = false := by
  cases hdev : s.device with
  | chip => simp [State.sendable_chip hdev]
  | refDev => simp [State.sendable_refDev hdev]

/-- RefDev stores a request within its map. -/
theorem State.stored_mem_refDev {s : State} {q : Request} (hdev : s.device = .refDev) (hq : RefDev.accepts q = true) :
    (s.stored q).mem = RefDev.store s.mem q :=
  if_pos ((State.onRefDev_refDev hdev q).trans hq)

/-! ### The shape of a read's result (R31) -/

/-- What was answered `Ok` to a read reaches the block as it came if its length is right, else as a failure. -/
theorem State.replyTo_read_of_rawReply {s : State} {addr : BusAddr} {ptr : Byte} {m : Nat} {data : List Byte}
    (h : s.rawReply (.tWriteRead addr ptr m) = .ok data) :
    s.replyTo (.tWriteRead addr ptr m) =
      if data.length = m then .ok data else .fail (Config.malformedError s.history (.tWriteRead addr ptr m)) := by
  rw [State.replyTo, h]
  rfl

/-! ### How a bus command ends -/

/-- However the request was answered, its one exchange joins the history. -/
@[simp] theorem State.concluded_history (s : State) (i : Instr) (q : Request) (k : List Byte → Value) (r : Reply) :
    (s.concluded i q k r).history = ⟨q, r⟩ :: s.history := by
  cases r <;> rfl

/-- The next state of a bus command is the conclusion of its request. -/
theorem eq_concluded_of_exec {i : Instr} {s t : State} {q : Request} (hq : busRequest s.regMap i = some q)
    (h : exec i s = .next t) : t = s.concluded i q (busValue i) (s.replyTo q) := by
  rw [exec_eq_transact hq] at h
  obtain ⟨hsend, -⟩ := State.transact_cases h
  rw [State.transact_next i _ hsend] at h
  exact (Host.Outcome.next.inj h).symm

theorem State.transact_eq_refused_iff {s : State} {i : Instr} {q : Request} {k : List Byte → Value} {r : Refusal} :
    s.transact i q k = .refused r ↔ r = .outsideRefDev ∧ s.sendable q = false := by
  cases hsend : s.sendable q with
  | true => simp [State.transact_next i k hsend]
  | false => simp [State.transact_refused i k hsend, eq_comm]

/-- A command without a request ends in a next state, and no exchange joins the history. -/
theorem exec_without_request_history {i : Instr} {s : State} (hq : busRequest s.regMap i = none) :
    ∃ t, exec i s = .next t ∧ t.history = s.history := by
  rcases exec_without_request hq with ⟨v, hv⟩ | hill
  · exact ⟨_, hv s, rfl⟩
  · exact ⟨_, hill s, rfl⟩

/-- Under RefDev answering by itself, a command with a request in the map ends by RefDev's answer (R46). -/
theorem exec_refDev {i : Instr} {s : State} {q : Request} (hbus : busRequest s.regMap i = some q)
    (hdev : s.device = .refDev) (hscript : s.script = []) (hq : RefDev.accepts q = true) :
    exec i s = .next (s.concluded i q (busValue i) (RefDev.reply s.mem q)) := by
  rw [exec_eq_transact hbus, State.transact_next i _ ((State.sendable_refDev hdev q).trans hq),
    State.replyTo_refDev hdev hscript hq]

/-! ### The obligations -/

/-- Settles O33: a bus command ends with its one exchange in the history, any other command leaves the history. -/
theorem atMostOneRequestPerCommand : Obligations.AtMostOneRequestPerCommand := by
  intro i s t h
  cases hq : busRequest s.regMap i with
  | none =>
    obtain ⟨u, hu, hist⟩ := exec_without_request_history hq
    cases hu.symm.trans h
    exact hist
  | some q =>
    rw [eq_concluded_of_exec hq h]
    exact State.concluded_history s i q _ _

/-- Settles O36: a failed read loses no register, and an unanswered request stores and loses nothing yet. -/
theorem unservedRequestStoresNothing : Obligations.UnservedRequestStoresNothing := by
  intro i s t q hq h
  obtain rfl := eq_concluded_of_exec hq h
  refine ⟨fun reg e hread hfail a => ?_, fun hsilent a => ?_⟩
  · subst hread
    rw [hfail]
    exact congrArg (Memory.read · a) (State.lost_read_mem (s.exchanged _ (.fail e)) 0x68 reg 1)
  · rw [hsilent]
    rfl

/-- Settles O38: a command stops only in its transaction, and that only where its request cannot be made. -/
theorem onlyRefDevRefuses : Obligations.OnlyRefDevRefuses := by
  intro i s
  cases hq : busRequest s.regMap i with
  | none =>
    obtain ⟨t, ht, -⟩ := exec_without_request_history hq
    simp [ht]
  | some q =>
    rw [exec_eq_transact hq]
    refine ⟨fun f => State.transact_not_fault, fun r => ?_⟩
    rw [State.transact_eq_refused_iff, State.sendable_eq_false_iff]
    simp

/-- Settles O43: WRREG leaves the byte at its register and the transport as it was, and RDREG reads that register. -/
theorem refDevReturnsTheByteWritten : Obligations.RefDevReturnsTheByteWritten := by
  intro s reg data hdev hscript hwf hreg
  have hwrite : RefDev.accepts (.tWrite 0x68 [reg, data]) = true :=
    (RefDev.accepts_write_iff reg data []).mpr (Nat.succ_le_succ hreg)
  have hread : RefDev.accepts (.tWriteRead 0x68 reg 1) = true := (RefDev.accepts_read_iff reg).mpr hreg
  refine ⟨_, _, exec_refDev rfl hdev hscript hwrite, exec_refDev rfl hdev (congrArg List.tail hscript) hread, ?_⟩
  have hmem : (s.stored (.tWrite 0x68 [reg, data])).mem = Memory.write s.mem reg.toNat data :=
    State.stored_mem_refDev hdev hwrite
  have hvalue : zext16 (Memory.read (s.stored (.tWrite 0x68 [reg, data])).mem reg.toNat) =
      BitVec.ofNat 16 data.toNat := by
    rw [hmem, Memory.read_write hwf, if_pos rfl, zext16_eq]
  exact congrArg (fun v => rspWord 0x00 0x00 v :: rspWord 0x00 0x00 0x0000 :: s.responses) hvalue

/-- Settles O47: the length decides what a read's `Ok` becomes, and a write's `Ok` is cut to no data. -/
theorem wrongLengthReadIsAFailure : Obligations.WrongLengthReadIsAFailure := by
  intro s addr data
  refine ⟨fun ptr m hraw => ?_, fun _ _ => State.replyTo_read_ok, fun _ => State.replyTo_write_ok⟩
  rw [State.replyTo_read_of_rawReply hraw]
  exact ⟨fun hlen => if_pos hlen, fun hlen => ⟨_, if_neg hlen⟩⟩

/-- Settles O39: the two bounds of RefDev's map. -/
theorem refDevMapBounds : Obligations.RefDevMapBounds := by
  refine ⟨RefDev.accepts_read_iff, fun ptr d ds => ?_⟩
  rw [RefDev.accepts_write_iff]
  omega

end Sys2Proof.Machine

/-! SUPPORT. The rules of the encoding family's proofs: the command a word holds in the fields of a row, the decoder as an
equivalence, what the ignored bits of a word are, and what the encoder and the assembler write. The theorems that settle
the obligations are at the end. -/

namespace Sys2Proof

/-! ### The decoder, said once (R61 to R71) -/

/-- The command of a row with its operands read from the fields of its format in a word (R62, R63). -/
def Mnemonic.commandIn (w : CmdWord) : Mnemonic → Instr
  | .wrreg => .wrreg (w.extractLsb 71 64) (w.extractLsb 63 56)
  | .rdreg => .rdreg (w.extractLsb 71 64)
  | .wrburst => .wrburst (w.extractLsb 71 64) ((burstSlots w).take (burstCount w).toNat)
  | .bcd2dec => .bcd2dec (w.extractLsb 71 64)
  | .dec2bcd => .dec2bcd (w.extractLsb 71 64)
  | .getsec => .getsec
  | .getmin => .getmin
  | .gethour => .gethour
  | .getday => .getday
  | .getdate => .getdate
  | .getmonth => .getmonth
  | .getyear => .getyear
  | .setdt => .setdt (w.extractLsb 71 56) (w.extractLsb 55 48) (w.extractLsb 47 40) (w.extractLsb 39 32)
      (w.extractLsb 31 24) (w.extractLsb 23 16) (w.extractLsb 15 8)

/-- The one operand check of R69: a row other than WRBURST has none. -/
def Mnemonic.CountLegal (m : Mnemonic) (w : CmdWord) : Prop :=
  m = .wrburst → 1 ≤ (burstCount w).toNat ∧ (burstCount w).toNat ≤ 7

theorem Mnemonic.ofOpcode_eq_some_iff {op : Byte} {m : Mnemonic} : Mnemonic.ofOpcode op = some m ↔ op = m.opcode :=
  ⟨fun h => (Mnemonic.opcode_of_ofOpcode h).symm, fun h => h ▸ Mnemonic.ofOpcode_opcode m⟩

theorem decodeBurst_eq_ok_iff {w : CmdWord} {i : Instr} :
    decodeBurst w = .ok i ↔ Mnemonic.wrburst.CountLegal w ∧ i = Mnemonic.wrburst.commandIn w := by
  unfold decodeBurst
  split
  next hn => simp [Mnemonic.CountLegal, Mnemonic.commandIn, hn, eq_comm]
  next hn => simp [Mnemonic.CountLegal, hn]

/-- Where the opcode is a row's, the decoder gives that row's command unless the burst count is illegal. -/
theorem decode_eq_ok_iff_of_row {w : CmdWord} {m : Mnemonic} {i : Instr} (h : opField w = m.opcode) :
    decode w = .ok i ↔ m.CountLegal w ∧ i = m.commandIn w := by
  rw [decode, Mnemonic.ofOpcode_eq_some_iff.mpr h]
  cases m
  case wrburst => exact decodeBurst_eq_ok_iff
  all_goals simp [Mnemonic.CountLegal, Mnemonic.commandIn, eq_comm]

/-- A word decodes exactly if its opcode is a row's and its burst count is legal, and then to that row's command. -/
theorem decode_eq_ok_iff {w : CmdWord} {i : Instr} :
    decode w = .ok i ↔ ∃ m : Mnemonic, opField w = m.opcode ∧ m.CountLegal w ∧ i = m.commandIn w := by
  refine ⟨fun h => ?_, fun ⟨m, hop, hm⟩ => (decode_eq_ok_iff_of_row hop).mpr hm⟩
  cases hrow : Mnemonic.ofOpcode (opField w) with
  | none => simp [decode, hrow] at h
  | some m =>
    have hop := Mnemonic.ofOpcode_eq_some_iff.mp hrow
    exact ⟨m, hop, (decode_eq_ok_iff_of_row hop).mp h⟩

@[simp] theorem Mnemonic.commandIn_mnemonic (m : Mnemonic) (w : CmdWord) : (m.commandIn w).mnemonic = m := by
  cases m <;> rfl

theorem burstSlots_take_length {w : CmdWord} (h : (burstCount w).toNat ≤ 7) :
    ((burstSlots w).take (burstCount w).toNat).length = (burstCount w).toNat :=
  List.length_take_of_le h

theorem Mnemonic.commandIn_wellFormed {m : Mnemonic} {w : CmdWord} (h : m.CountLegal w) :
    (m.commandIn w).WellFormed := by
  cases m
  case wrburst =>
    have hn := h rfl
    simpa [Mnemonic.commandIn, Instr.WellFormed, Instr.wellFormed, burstSlots_take_length hn.2] using hn
  all_goals rfl

/-! ### The word of a command (R62, R65) -/

theorem burstCount_encodeBU {op reg : Byte} {data : List Byte} (h : data.length ≤ 7) :
    (burstCount (encodeBU op reg data)).toNat = data.length := by
  rw [burstCount, encodeBU_n, BitVec.toNat_ofNat]
  exact Nat.mod_eq_of_lt (by omega)

theorem burstSlots_encodeBU {op reg : Byte} {data : List Byte} (h : data.length ≤ 7) :
    (burstSlots (encodeBU op reg data)).take data.length = data := by
  rw [burstSlots, encodeBU_d0, encodeBU_d1, encodeBU_d2, encodeBU_d3, encodeBU_d4, encodeBU_d5, encodeBU_d6]
  exact take_slots data h

theorem opField_encode (i : Instr) : opField (encode i) = i.mnemonic.opcode := by
  cases i
  case wrreg => exact encodeRB_op _ _ _
  case wrburst => exact encodeBU_op _ _ _
  case setdt => exact encodeDT_op _ _ _ _ _ _ _ _
  case rdreg | bcd2dec | dec2bcd => exact encodeB_op _ _
  all_goals exact encodeN_op _

theorem Instr.wellFormed_wrburst_iff {reg : Byte} {data : List Byte} :
    (Instr.wrburst reg data).WellFormed ↔ 1 ≤ data.length ∧ data.length ≤ 7 := by
  simp [Instr.WellFormed, Instr.wellFormed]

theorem countLegal_encode {i : Instr} (h : i.WellFormed) : i.mnemonic.CountLegal (encode i) := by
  cases i <;> intro hm
  case wrburst reg data =>
    have hlen := Instr.wellFormed_wrburst_iff.mp h
    rwa [encode, burstCount_encodeBU hlen.2]
  all_goals cases hm

/-- The fields of a command's word hold its operands. -/
theorem commandIn_encode {i : Instr} (h : i.WellFormed) : i.mnemonic.commandIn (encode i) = i := by
  cases i
  case wrburst reg data =>
    have hlen := (Instr.wellFormed_wrburst_iff.mp h).2
    simp only [Instr.mnemonic, Mnemonic.commandIn, encode, encodeBU_reg, burstCount_encodeBU hlen,
      burstSlots_encodeBU hlen]
  case wrreg => simp only [Instr.mnemonic, Mnemonic.commandIn, encode, encodeRB_reg, encodeRB_data]
  case rdreg | bcd2dec | dec2bcd => simp only [Instr.mnemonic, Mnemonic.commandIn, encode, encodeB_a]
  case setdt =>
    simp only [Instr.mnemonic, Mnemonic.commandIn, encode, encodeDT_year, encodeDT_month, encodeDT_date,
      encodeDT_weekday, encodeDT_hour, encodeDT_minute, encodeDT_second]
  all_goals rfl

/-! ### Ignored bits (R65) -/

/-- A field that lies above the ignored bits is the same in words that differ only there. -/
theorem extractLsb'_eq_of_ushiftRight_eq {w w' : CmdWord} {n lo len : Nat} (h : w' >>> n = w >>> n) (hlo : n ≤ lo) :
    w'.extractLsb' lo len = w.extractLsb' lo len := by
  apply BitVec.eq_of_getLsbD_eq
  intro k hk
  have hbit : (w' >>> n).getLsbD (lo - n + k) = (w >>> n).getLsbD (lo - n + k) := by rw [h]
  have hk' : n + (lo - n + k) = lo + k := by omega
  rw [BitVec.getLsbD_ushiftRight, BitVec.getLsbD_ushiftRight, hk'] at hbit
  rw [BitVec.getLsbD_extractLsb', BitVec.getLsbD_extractLsb', hbit]

theorem burstSlots_eq_map (w : CmdWord) :
    burstSlots w = (List.range 7).map fun k => w.extractLsb' (48 - 8 * k) 8 := rfl

/-- The first `n` slots lie above the bits that a burst of `n` bytes ignores. -/
theorem burstSlots_take_eq {w w' : CmdWord} {n : Nat} (hn : n ≤ 7)
    (h : w' >>> (80 - (24 + 8 * n)) = w >>> (80 - (24 + 8 * n))) :
    (burstSlots w').take n = (burstSlots w).take n := by
  rw [burstSlots_eq_map, burstSlots_eq_map, ← List.map_take, ← List.map_take]
  refine List.map_congr_left fun k hk => extractLsb'_eq_of_ushiftRight_eq h ?_
  have hk : k < n := by
    rw [List.take_range, List.mem_range] at hk
    omega
  omega

theorem usedBits_commandIn_wrburst {w : CmdWord} (h : Mnemonic.wrburst.CountLegal w) :
    (Mnemonic.wrburst.commandIn w).usedBits = 24 + 8 * (burstCount w).toNat := by
  rw [Mnemonic.commandIn, Instr.usedBits, burstSlots_take_length (h rfl).2]

theorem Instr.eight_le_usedBits (i : Instr) : 8 ≤ i.usedBits := by
  cases i <;> simp only [Instr.usedBits] <;> omega

/-- The opcode lies above the bits that any command ignores. -/
theorem opField_eq_of_ushiftRight_eq {w w' : CmdWord} {i : Instr}
    (h : w' >>> (80 - i.usedBits) = w >>> (80 - i.usedBits)) : opField w' = opField w :=
  extractLsb'_eq_of_ushiftRight_eq (lo := 72) (len := 8) h (by have := i.eight_le_usedBits; omega)

theorem burstCount_eq_of_ushiftRight_eq {w w' : CmdWord} (hw : Mnemonic.wrburst.CountLegal w)
    (h : w' >>> (80 - (Mnemonic.wrburst.commandIn w).usedBits) = w >>> (80 - (Mnemonic.wrburst.commandIn w).usedBits)) :
    burstCount w' = burstCount w :=
  extractLsb'_eq_of_ushiftRight_eq (lo := 56) (len := 8) h (by rw [usedBits_commandIn_wrburst hw]; omega)

theorem countLegal_of_ushiftRight_eq {m : Mnemonic} {w w' : CmdWord} (hw : m.CountLegal w)
    (h : w' >>> (80 - (m.commandIn w).usedBits) = w >>> (80 - (m.commandIn w).usedBits)) : m.CountLegal w' := by
  rintro rfl
  rw [burstCount_eq_of_ushiftRight_eq hw h]
  exact hw rfl

/-- Words that differ only in the bits a command of the row ignores hold the same command of the row. -/
theorem commandIn_eq_of_ushiftRight_eq {m : Mnemonic} {w w' : CmdWord} (hw : m.CountLegal w)
    (h : w' >>> (80 - (m.commandIn w).usedBits) = w >>> (80 - (m.commandIn w).usedBits)) :
    m.commandIn w' = m.commandIn w := by
  have field : ∀ {lo len : Nat}, 80 - (m.commandIn w).usedBits ≤ lo → w'.extractLsb' lo len = w.extractLsb' lo len :=
    extractLsb'_eq_of_ushiftRight_eq h
  cases m
  case wrburst =>
    have hcount := burstCount_eq_of_ushiftRight_eq hw h
    rw [usedBits_commandIn_wrburst hw] at h field
    have hslots := burstSlots_take_eq (hw rfl).2 h
    have hreg : w'.extractLsb 71 64 = w.extractLsb 71 64 := field (by omega)
    simp only [Mnemonic.commandIn, hcount, hslots, hreg]
  case wrreg | rdreg | bcd2dec | dec2bcd | setdt =>
    simp only [Mnemonic.commandIn, Instr.usedBits, BitVec.extractLsb, Nat.reduceSub] at field ⊢
    simp (disch := decide) only [field]
  all_goals rfl

/-! ### The encoder writes zeros there (R65) -/

/-- The top `n` bits of a word, followed by zeros. -/
theorem extractLsb'_append_zero {n m : Nat} (w : BitVec (n + m)) :
    w.extractLsb' m n ++ (0 : BitVec m) = (w >>> m) <<< m := by
  apply BitVec.eq_of_getLsbD_eq
  intro k hk
  rw [BitVec.getLsbD_append, BitVec.getLsbD_shiftLeft, BitVec.getLsbD_ushiftRight, BitVec.getLsbD_extractLsb']
  by_cases hkm : k < m
  · simp [hkm]
  · have hlen : k - m < n := by omega
    simp [hkm, hlen, hk]

theorem encodeN_fields (w : CmdWord) : encodeN (opField w) = (w >>> 72) <<< 72 :=
  extractLsb'_append_zero (n := 8) (m := 72) w

theorem encodeB_fields (w : CmdWord) : encodeB (opField w) (w.extractLsb 71 64) = (w >>> 64) <<< 64 := by
  simp (disch := rfl) only [encodeB, opField, BitVec.extractLsb, BitVec.extractLsb'_append_extractLsb'_eq_extractLsb']
  exact extractLsb'_append_zero (n := 16) (m := 64) w

theorem encodeRB_fields (w : CmdWord) :
    encodeRB (opField w) (w.extractLsb 71 64) (w.extractLsb 63 56) = (w >>> 56) <<< 56 := by
  simp (disch := rfl) only [encodeRB, opField, BitVec.extractLsb, BitVec.extractLsb'_append_extractLsb'_eq_extractLsb']
  exact extractLsb'_append_zero (n := 24) (m := 56) w

theorem encodeDT_fields (w : CmdWord) :
    encodeDT (opField w) (w.extractLsb 71 56) (w.extractLsb 55 48) (w.extractLsb 47 40) (w.extractLsb 39 32)
      (w.extractLsb 31 24) (w.extractLsb 23 16) (w.extractLsb 15 8) = (w >>> 8) <<< 8 := by
  simp (disch := rfl) only [encodeDT, opField, BitVec.extractLsb, BitVec.extractLsb'_append_extractLsb'_eq_extractLsb']
  exact extractLsb'_append_zero (n := 72) (m := 8) w

/-- Two words with the same ten bytes are the same. -/
theorem CmdWord.eq_of_bytes {w w' : CmdWord} (h : ∀ k < 10, w.extractLsb' (8 * k) 8 = w'.extractLsb' (8 * k) 8) :
    w = w' := by
  apply BitVec.eq_of_getLsbD_eq
  intro j hj
  have hbit := congrArg (BitVec.getLsbD · (j % 8)) (h (j / 8) (by omega))
  have hmod : j % 8 < 8 := by omega
  simpa only [BitVec.getLsbD_extractLsb', Nat.div_add_mod, hmod, decide_true, Bool.true_and] using hbit

/-- A field above the zeroed bits is kept. -/
theorem extractLsb'_masked_of_le (w : CmdWord) {n lo len : Nat} (hlo : n ≤ lo) :
    ((w >>> n) <<< n).extractLsb' lo len = w.extractLsb' lo len := by
  apply BitVec.eq_of_getLsbD_eq
  intro k hk
  simp only [BitVec.getLsbD_extractLsb', BitVec.getLsbD_shiftLeft, BitVec.getLsbD_ushiftRight]
  have hn : ¬ lo + k < n := by omega
  have hpos : n + (lo + k - n) = lo + k := by omega
  by_cases hlt : lo + k < 80
  · simp [hn, hpos, hlt]
  · simp [hlt, BitVec.getLsbD_of_ge w (lo + k) (by omega)]

/-- A field within the zeroed bits is zero. -/
theorem extractLsb'_masked_of_add_le (w : CmdWord) {n lo len : Nat} (hlo : lo + len ≤ n) :
    ((w >>> n) <<< n).extractLsb' lo len = 0 := by
  apply BitVec.eq_of_getLsbD_eq
  intro k hk
  have hn : lo + k < n := by omega
  simp [hn]

theorem burstSlots_take_getD (w : CmdWord) {n j : Nat} (hj : j < 7) :
    ((burstSlots w).take n).getD j 0 = if j < n then w.extractLsb' (48 - 8 * j) 8 else 0 := by
  rw [burstSlots_eq_map, List.getD_eq_getElem?_getD, List.getElem?_take]
  split <;> simp [hj]

/-- A data byte of a burst is the one at its place, or lies in the bits the burst ignores. -/
theorem burstSlots_take_getD_eq_masked (w : CmdWord) {n j : Nat} (hn : n ≤ 7) (hj : j < 7) :
    ((burstSlots w).take n).getD j 0 =
      ((w >>> (80 - (24 + 8 * n))) <<< (80 - (24 + 8 * n))).extractLsb' (48 - 8 * j) 8 := by
  rw [burstSlots_take_getD w hj]
  split
  next hjn => rw [extractLsb'_masked_of_le w (by omega)]
  next hjn => rw [extractLsb'_masked_of_add_le w (by omega)]

theorem encodeBU_slot (op reg : Byte) (data : List Byte) {j : Nat} (hj : j < 7) :
    (encodeBU op reg data).extractLsb' (48 - 8 * j) 8 = data.getD j 0 := by
  interval_cases j
  exacts [encodeBU_d0 op reg data, encodeBU_d1 op reg data, encodeBU_d2 op reg data, encodeBU_d3 op reg data,
    encodeBU_d4 op reg data, encodeBU_d5 op reg data, encodeBU_d6 op reg data]

theorem encodeBU_fields {w : CmdWord} (hn : (burstCount w).toNat ≤ 7) :
    encodeBU (opField w) (w.extractLsb 71 64) ((burstSlots w).take (burstCount w).toNat) =
      (w >>> (80 - (24 + 8 * (burstCount w).toNat))) <<< (80 - (24 + 8 * (burstCount w).toNat)) := by
  apply CmdWord.eq_of_bytes
  intro k hk
  by_cases hslot : k < 7
  · have hplace : 8 * k = 48 - 8 * (6 - k) := by omega
    rw [hplace, encodeBU_slot _ _ _ (by omega), burstSlots_take_getD_eq_masked w hn (by omega)]
  · rw [extractLsb'_masked_of_le w (by omega)]
    obtain rfl | rfl | rfl : k = 7 ∨ k = 8 ∨ k = 9 := by omega
    · have hlen : BitVec.ofNat 8 ((burstSlots w).take (burstCount w).toNat).length = burstCount w := by
        rw [burstSlots_take_length hn, BitVec.ofNat_toNat, BitVec.setWidth_eq]
      exact (encodeBU_n _ _ _).trans hlen
    · exact encodeBU_reg _ _ _
    · exact encodeBU_op _ _ _

/-- The word of the command a word holds is that word with the bits the command ignores zeroed. -/
theorem encode_commandIn {m : Mnemonic} {w : CmdWord} (hop : opField w = m.opcode) (hm : m.CountLegal w) :
    encode (m.commandIn w) = (w >>> (80 - (m.commandIn w).usedBits)) <<< (80 - (m.commandIn w).usedBits) := by
  cases m <;> rw [Mnemonic.commandIn, encode, ← hop]
  case wrreg => exact encodeRB_fields w
  case wrburst =>
    rw [Instr.usedBits, burstSlots_take_length (hm rfl).2]
    exact encodeBU_fields (hm rfl).2
  case rdreg | bcd2dec | dec2bcd => exact encodeB_fields w
  case setdt => exact encodeDT_fields w
  all_goals exact encodeN_fields w

end Sys2Proof

namespace Sys2Proof.Machine

/-! ### Words that are no command (R68, R69) -/

/-- A word that decodes to no command gives the `ILLEGAL` response and no other change. -/
theorem step_eq_illegalAnswer {s : State} {w : CmdWord} (hs : s.Ready) (hw : s.presented = some w)
    (hd : ∀ i, decode w ≠ .ok i) : step s = .next (Claims.illegalAnswer s) := by
  obtain ⟨hreset, hidle, hrun⟩ := hs
  cases hdec : decode w with
  | ok i => exact absurd hdec (hd i)
  | error e =>
    simp only [step, hreset, hidle, hrun, hw, hdec]
    rfl

/-- R68's five ranges are the opcodes of no row. -/
theorem undefinedOp_iff {op : Byte} : Claims.UndefinedOp op ↔ ∀ m : Mnemonic, op ≠ m.opcode := by
  constructor
  · rintro h m rfl
    revert h
    unfold Claims.UndefinedOp
    cases m <;> decide
  · intro h
    have hrows : ∀ m ∈ Mnemonic.all, op.toNat ≠ m.opcode.toNat := fun m _ heq => h m (BitVec.eq_of_toNat_eq heq)
    simp only [Mnemonic.all, Mnemonic.opcode, List.mem_cons, List.not_mem_nil, or_false, forall_eq_or_imp, forall_eq,
      ne_eq, BitVec.ofNat_eq_ofNat, BitVec.toNat_ofNat, Nat.reducePow, Nat.one_mod, Nat.reduceMod] at hrows
    unfold Claims.UndefinedOp
    omega

theorem decode_ne_ok_of_undefinedOp {w : CmdWord} (h : Claims.UndefinedOp (w.extractLsb 79 72)) (i : Instr) :
    decode w ≠ .ok i := by
  intro hd
  obtain ⟨m, hop, -⟩ := decode_eq_ok_iff.mp hd
  exact undefinedOp_iff.mp h m hop

theorem decode_ne_ok_of_burstCount {w : CmdWord} (hop : w.extractLsb 79 72 = 0x03#8)
    (hn : (w.extractLsb 63 56).toNat = 0 ∨ 7 < (w.extractLsb 63 56).toNat) (i : Instr) : decode w ≠ .ok i := by
  intro hd
  obtain ⟨hcount, -⟩ := (decode_eq_ok_iff_of_row (m := .wrburst) hop).mp hd
  obtain ⟨hlo, hhi⟩ : 1 ≤ (w.extractLsb 63 56).toNat ∧ (w.extractLsb 63 56).toNat ≤ 7 := hcount rfl
  omega

/-! ### The assembler (R72) -/

@[simp] theorem asmField_toNat {n : Nat} (b : BitVec n) : asmField n b.toNat = some b := by
  rw [asmField, if_pos b.isLt, BitVec.ofNat_toNat, BitVec.setWidth_eq]

@[simp] theorem asmBytes_toNat (bs : List Byte) : asmBytes (bs.map BitVec.toNat) = some bs := by
  induction bs with
  | nil => rfl
  | cons b bs ih => simp [asmBytes, ih]

@[simp] theorem asmValues_num (env : HostEnv) (ns : List Nat) : asmValues env (ns.map .num) = some ns := by
  induction ns with
  | nil => rfl
  | cons n ns ih => simp [asmValues, AsmOperand.eval, ih]

/-- The operands of a burst, read as bytes: the count fits its field. -/
theorem asmBytes_burst {reg : Byte} {data : List Byte} (h : data.length ≤ 7) :
    asmBytes (asmOperands (.wrburst reg data)) = some (reg :: BitVec.ofNat 8 data.length :: data) := by
  have hlen : asmField 8 data.length = some (BitVec.ofNat 8 data.length) := if_pos (by omega)
  simp [asmOperands, asmBytes, hlen]

theorem asmBU_burst {reg : Byte} {data : List Byte} (h : (Instr.wrburst reg data).WellFormed) :
    asmBU (reg :: BitVec.ofNat 8 data.length :: data) = some (.wrburst reg data) := by
  obtain ⟨-, hlen⟩ := Instr.wellFormed_wrburst_iff.mp h
  have hcount : (BitVec.ofNat 8 data.length).toNat = data.length := Nat.mod_eq_of_lt (by omega)
  exact if_pos ⟨hcount, h⟩

/-! ### How a command ends -/

/-- Whose request it was shows only while it is unanswered. -/
theorem State.concluded_eq_of_answered {r : Reply} (h : r ≠ .noAnswer) (s : State) (i j : Instr) (q : Request)
    (k : List Byte → Value) : s.concluded i q k r = s.concluded j q k r := by
  cases r with
  | ok data => rfl
  | fail e => rfl
  | noAnswer => exact absurd rfl h

/-- Two commands that make the same request and the same value of its data have one outcome, unless it is unanswered. -/
theorem State.transact_eq_of_answered {s : State} {q : Request} (h : s.replyTo q ≠ .noAnswer) (i j : Instr)
    (k : List Byte → Value) : s.transact i q k = s.transact j q k := by
  rw [State.transact, State.transact, State.concluded_eq_of_answered h s i j]

/-- With the chip behind the transport every command answers a next state (R34). -/
theorem exec_next_of_chip {s : State} (h : s.device = .chip) (i : Instr) : ∃ t, exec i s = .next t := by
  cases hq : busRequest s.regMap i with
  | none =>
    obtain ⟨t, ht, -⟩ := exec_without_request_history hq
    exact ⟨t, ht⟩
  | some q => exact ⟨_, (exec_eq_transact hq).trans (State.transact_next i _ (State.sendable_chip h q))⟩

/-! ### The obligations -/

/-- Settles O1: the word's opcode names the command's row, and its fields hold the operands. -/
theorem decodeEncodeRoundTrip : Obligations.DecodeEncodeRoundTrip := fun i h =>
  decode_eq_ok_iff.mpr ⟨i.mnemonic, opField_encode i, countLegal_encode h, (commandIn_encode h).symm⟩

/-- Settles O2: all that the decoder reads lies above the ignored bits, and the encoder writes it back there. -/
theorem ignoredBitsPlayNoPart : Obligations.IgnoredBitsPlayNoPart := by
  intro w i h
  obtain ⟨m, hop, hcount, rfl⟩ := decode_eq_ok_iff.mp h
  refine ⟨fun w' hw' => decode_eq_ok_iff.mpr ⟨m, ?_, ?_, ?_⟩, encode_commandIn hop hcount⟩
  · exact (opField_eq_of_ushiftRight_eq hw').trans hop
  · exact countLegal_of_ushiftRight_eq hcount hw'
  · exact (commandIn_eq_of_ushiftRight_eq hcount hw').symm

/-- Settles O3: the command is the one of the row that the opcode names, and its burst count is legal. -/
theorem decodedCommandIsWellFormed : Obligations.DecodedCommandIsWellFormed := by
  intro w i h
  obtain ⟨m, hop, hcount, rfl⟩ := decode_eq_ok_iff.mp h
  exact ⟨Mnemonic.commandIn_wellFormed hcount, (congrArg _ (m.commandIn_mnemonic w)).trans hop.symm⟩

/-- Settles O4: the ranges hold no row's opcode, and the two special words have the opcodes 0x00 and 0xFF. -/
theorem undefinedOpcodeIsIllegal : Obligations.UndefinedOpcodeIsIllegal := by
  have hrange : ∀ (s : State) (w : CmdWord), s.Ready → s.program[s.seq]? = some w →
      Claims.UndefinedOp (w.extractLsb 79 72) → step s = .next (Claims.illegalAnswer s) :=
    fun s w hs hw hop => step_eq_illegalAnswer hs hw (decode_ne_ok_of_undefinedOp hop)
  refine ⟨hrange, fun s w hs hw hword => hrange s w hs hw ?_⟩
  unfold Claims.UndefinedOp
  rcases hword with rfl | rfl <;> decide

/-- Settles O5: the burst count is the only operand the decoder's equivalence speaks of. -/
theorem burstCountIsTheOneOperandCheck : Obligations.BurstCountIsTheOneOperandCheck := by
  refine ⟨fun s w hs hw hop hn => step_eq_illegalAnswer hs hw (decode_ne_ok_of_burstCount hop hn), fun w hop hn => ?_⟩
  obtain ⟨m, hm⟩ : ∃ m : Mnemonic, opField w = m.opcode := by
    simpa [opField] using mt undefinedOp_iff.mpr hop
  refine ⟨m.commandIn w, (decode_eq_ok_iff_of_row hm).mpr ⟨?_, rfl⟩⟩
  rintro rfl
  exact hn hm

/-- Settles O8: the operands are written as the numbers of their fields, which the assembler reads back. -/
theorem assembledLineIsTheCommand : Obligations.AssembledLineIsTheCommand := by
  intro env i h
  rw [AsmLine.assemble, asmLine, asmValues_num]
  cases i
  case wrburst reg data =>
    obtain ⟨-, hlen⟩ := Instr.wellFormed_wrburst_iff.mp h
    simp only [Instr.mnemonic, asmBytes_burst hlen, Option.bind_some, asmBU_burst h]
  case wrreg => simp [Instr.mnemonic, asmOperands, asmBytes, asmRB]
  case rdreg | bcd2dec | dec2bcd => simp [Instr.mnemonic, asmOperands, asmBytes, asmB]
  case setdt => simp [Instr.mnemonic, asmOperands, asmBytes, asmSetdt]
  all_goals rfl

/-- Settles O34: a command ends with its response, or holds its unanswered request. -/
theorem oneResponsePerCommand : Obligations.OneResponsePerCommand := by
  intro i s t h
  rcases exec_cases h with ⟨v, -, rfl⟩ | ⟨-, -, rfl⟩ | ⟨q, hq, -, ⟨data, v, -, rfl⟩ | ⟨e, -, rfl⟩ | ⟨hsilent, rfl⟩⟩
  · exact .inl ⟨rspOk v, rfl, rfl⟩
  · exact .inl ⟨_, rfl, rfl⟩
  · exact .inl ⟨rspOk v, rfl, rfl⟩
  · exact .inl ⟨_, rfl, rfl⟩
  · exact .inr ⟨q, hq, hsilent, rfl, rfl⟩

/-- Settles O40: both commands are the transaction of one request and return no value. -/
theorem wrregIsBurstOfOne : Obligations.WrregIsBurstOfOne := fun _ _ _ =>
  ⟨rfl, fun h => State.transact_eq_of_answered h _ _ noValue⟩

/-- Settles O49: the word is the command's own, and the chip takes every request. -/
theorem everyOperationIsACommand : Obligations.EveryOperationIsACommand := by
  intro m
  refine ⟨?_, fun i s h _ hs hdev hw => ⟨step_eq_exec hs hw (decodeEncodeRoundTrip i h), exec_next_of_chip hdev i⟩⟩
  have hcount : m.CountLegal 0x00000100000000000000 := fun _ => by decide
  exact ⟨m.commandIn _, Mnemonic.commandIn_wellFormed hcount, m.commandIn_mnemonic _⟩

/-- Settles O6: each word, run through the decoder. -/
theorem exampleWordsDecode : Obligations.ExampleWordsDecode := by
  unfold Obligations.ExampleWordsDecode
  decide

/-- Settles O7: the three fields of a response word, read back. -/
theorem responseWordLayout : Obligations.ResponseWordLayout := fun status err value =>
  ⟨rspStatus_rspWord status err value, rspErr_rspWord status err value, rspValue_rspWord status err value⟩

/-- Settles O48: the line's variable is bound by the status byte alone. -/
theorem onlyOkResponsesBindAVariable : Obligations.OnlyOkResponsesBindAVariable := by
  intro env l name status err value hbind
  simp only [AsmLine.bindResponse, hbind, rspStatus_rspWord, rspValue_rspWord]
  exact ⟨fun hok => if_pos hok, fun hne => if_neg hne⟩

/-- Settles O50: each name, looked up in the table of R73. -/
theorem doc00NamesStandForTheirRows : Obligations.Doc00NamesStandForTheirRows := by
  unfold Obligations.Doc00NamesStandForTheirRows
  decide

end Sys2Proof.Machine

/-! SUPPORT. The rules of the bus family's proofs: which bytes a write leaves in RefDev, and the whole outcome of a command
that makes one write or one read of one byte. The theorems that settle the obligations are at the end. -/

namespace Sys2Proof.Machine

/-! ### RefDev's bytes after a write (R36, R46, R47) -/

/-- What can be made with RefDev behind the transport lies within RefDev's map. -/
theorem State.accepts_of_sendable {s : State} {q : Request} (hdev : s.device = .refDev) (hsend : s.sendable q = true) :
    RefDev.accepts q = true :=
  (State.sendable_refDev hdev q).symm.trans hsend

theorem State.stored_mem_chip {s : State} (hdev : s.device = .chip) (q : Request) : (s.stored q).mem = s.mem := by
  simp [State.onRefDev_chip hdev]

theorem State.lost_mem_chip {s : State} (hdev : s.device = .chip) (q : Request) : (s.lost q).mem = s.mem := by
  simp [State.onRefDev_chip hdev]

theorem State.lost_mem_refDev {s : State} {q : Request} (hdev : s.device = .refDev) (hq : RefDev.accepts q = true) :
    (s.lost q).mem = RefDev.lose s.history s.mem q :=
  if_pos ((State.onRefDev_refDev hdev q).trans hq)

section Write

variable {s : State} {addr : BusAddr} {ptr : Byte} {data : List Byte}

theorem State.storedBytes_stored (hwf : Memory.wf s.mem = true)
    (hsend : s.sendable (.tWrite addr (ptr :: data)) = true) :
    Claims.StoredBytes s (s.stored (.tWrite addr (ptr :: data))) ptr data := by
  intro a
  cases hdev : s.device with
  | chip => rw [State.stored_mem_chip hdev, if_neg (by simp)]
  | refDev =>
    rw [State.stored_mem_refDev hdev (State.accepts_of_sendable hdev hsend), RefDev.store,
      Memory.read_writeBytes hwf]
    simp

theorem State.lostBytes_lost (hwf : Memory.wf s.mem = true)
    (hsend : s.sendable (.tWrite addr (ptr :: data)) = true) :
    Claims.LostBytes s (s.lost (.tWrite addr (ptr :: data))) ptr data.length := by
  intro a hout
  cases hdev : s.device with
  | chip => rw [State.lost_mem_chip hdev]
  | refDev =>
    have houtside : ¬ (ptr.toNat ≤ a ∧ a < ptr.toNat + data.length) := by simp [hdev] at hout; omega
    rw [State.lost_mem_refDev hdev (State.accepts_of_sendable hdev hsend), RefDev.lose, Memory.read_writeBytes hwf,
      lostBytes_length, if_neg houtside]

end Write

/-! ### The whole outcome of a bus command (R93, R150) -/

theorem State.concluded_ok_completedWith (s : State) (i : Instr) (q : Request) (k : List Byte → Value)
    (data : List Byte) : Claims.CompletedWith s (s.concluded i q k (.ok data)) ⟨q, .ok data⟩ (k data) :=
  ⟨⟨rfl, rfl, rfl, rfl⟩, rfl, rfl, rfl, rfl, rfl, rfl⟩

theorem State.concluded_fail_failedWith (s : State) (i : Instr) (q : Request) (k : List Byte → Value)
    (e : TransportError) : Claims.FailedWith s (s.concluded i q k (.fail e)) q e :=
  ⟨⟨rfl, rfl, rfl, rfl⟩, rfl, rfl, rfl, rfl, rfl, rfl⟩

section OneRequest

variable {i : Instr} {s : State} {q : Request} {ptr : Byte}

/-- A bus command whose request can be made is concluded by the answer. -/
theorem exec_eq_concluded {r : Reply} (hbus : busRequest s.regMap i = some q) (hsend : s.sendable q = true)
    (hr : s.replyTo q = r) : exec i s = .next (s.concluded i q (busValue i) r) := by
  rw [exec_eq_transact hbus, State.transact_next i _ hsend, hr]

theorem writesInOneRequest_of_busRequest {data : List Byte}
    (hbus : busRequest s.regMap i = some (.tWrite 0x68 (ptr :: data))) (hvalue : busValue i [] = 0)
    (hwf : Memory.wf s.mem = true) (hsend : s.sendable (.tWrite 0x68 (ptr :: data)) = true) :
    Claims.WritesInOneRequest i s ptr data := by
  refine ⟨fun hok => ⟨_, exec_eq_concluded hbus hsend hok, ?_, ?_⟩,
    fun e hfail => ⟨_, exec_eq_concluded hbus hsend hfail, State.concluded_fail_failedWith s i _ _ e, ?_⟩⟩
  · exact hvalue ▸ State.concluded_ok_completedWith s i _ (busValue i) []
  · exact State.storedBytes_stored (s := s.exchanged _ (.ok [])) hwf hsend
  · exact State.lostBytes_lost (s := s.exchanged _ (.fail e)) hwf hsend

theorem readsOneByte_of_busRequest {value : Byte → Value}
    (hbus : busRequest s.regMap i = some (.tWriteRead 0x68 ptr 1)) (hvalue : ∀ b, busValue i [b] = value b)
    (hsend : s.sendable (.tWriteRead 0x68 ptr 1) = true) : Claims.ReadsOneByte i s ptr value := by
  refine ⟨fun b hok => ⟨_, exec_eq_concluded hbus hsend hok, ?_, fun a => ?_⟩,
    fun e hfail => ⟨_, exec_eq_concluded hbus hsend hfail, State.concluded_fail_failedWith s i _ _ e⟩⟩
  · exact hvalue b ▸ State.concluded_ok_completedWith s i _ (busValue i) [b]
  · exact congrArg (Memory.read · a) (State.stored_read_mem (s.exchanged _ (.ok [b])) 0x68 ptr 1)

end OneRequest

/-! ### The obligations -/

/-- Settles O17: WRREG is the write of one byte. -/
theorem wrregWritesOneByte : Obligations.WrregWritesOneByte :=
  fun _ _ _ hwf hsend => writesInOneRequest_of_busRequest rfl rfl hwf hsend

/-- Settles O18: RDREG is the read of one byte, and zero-extends it. -/
theorem rdregReturnsTheByte : Obligations.RdregReturnsTheByte :=
  fun _ _ hsend => readsOneByte_of_busRequest rfl zext16_eq hsend

/-- Settles O19: WRBURST with a legal length is the write of its bytes; its length is checked before the request. -/
theorem wrburstWritesItsBytes : Obligations.WrburstWritesItsBytes := by
  refine fun s reg data hwf => ⟨fun hlo hhi hsend => ?_, fun hlen => ?_⟩
  · exact writesInOneRequest_of_busRequest (if_pos ⟨hlo, hhi⟩) rfl hwf hsend
  · have hillegal : ¬ (1 ≤ data.length ∧ data.length ≤ 7) := by omega
    exact if_neg hillegal

end Sys2Proof.Machine

/-! SUPPORT. The codec as arithmetic on numbers: the digits of a byte, `Dec` and `Enc` of digits, and the two round trips.
The theorems that settle the codec family's obligations are at the end. -/

namespace Sys2Proof.Machine

/-! ### The digits of a byte (R22) -/

theorem highNibble_toNat (b : Byte) : (b.extractLsb 7 4).toNat = b.toNat / 16 := by
  rw [BitVec.extractLsb_toNat, Nat.shiftRight_eq_div_pow]
  omega

theorem lowNibble_toNat (b : Byte) : (b.extractLsb 3 0).toNat = b.toNat % 16 :=
  BitVec.extractLsb_toNat 3 0 b

theorem validBcd_iff_toNat (b : Byte) : validBcd b = true ↔ b.toNat / 16 ≤ 9 ∧ b.toNat % 16 ≤ 9 := by
  rw [validBcd_iff, highNibble_toNat, lowNibble_toNat]

/-! ### `Dec` (R101) -/

/-- R101's formula on the number of the byte. -/
theorem dec_eq (b : Byte) : dec b = b.toNat / 16 * 10 + b.toNat % 16 := by
  rw [dec, tensDigit, unitsDigit, highNibble_toNat, lowNibble_toNat]

theorem dec_le (b : Byte) : dec b ≤ 165 := by
  rw [dec_eq]
  omega

/-- Any two nibbles, valid digits or not, decode to tens times ten plus units. -/
theorem dec_ofDigits {t u : Nat} (ht : t ≤ 15) (hu : u ≤ 15) : dec (BitVec.ofNat 8 (t * 16 + u)) = t * 10 + u := by
  rw [dec_eq, BitVec.toNat_ofNat]
  omega

/-- Up to 159 the two decimal digits do, with a high nibble of at most 15; above, the high nibble is 15. -/
theorem exists_dec_eq {n : Nat} (h : n ≤ 165) : ∃ b : Byte, dec b = n := by
  by_cases hn : n < 160
  · refine ⟨BitVec.ofNat 8 (n / 10 * 16 + n % 10), ?_⟩
    rw [dec_ofDigits (by omega) (by omega)]
    omega
  · refine ⟨BitVec.ofNat 8 (15 * 16 + (n - 150)), ?_⟩
    rw [dec_ofDigits (by omega) (by omega)]
    omega

theorem dec_le_of_validBcd {b : Byte} (h : validBcd b = true) : dec b ≤ 99 := by
  rw [validBcd_iff_toNat] at h
  rw [dec_eq]
  omega

/-- A low nibble of 10 or more carries into the high nibble, 6 bytes on, where there is one; the bytes from 0xFA on are
alone in decoding to 160 and more (log entry 16). -/
theorem exists_ne_dec_eq_iff {b : Byte} (h : 10 ≤ b.toNat % 16) :
    (∃ c : Byte, c ≠ b ∧ dec c = dec b) ↔ b.toNat < 0xFA := by
  constructor
  · rintro ⟨c, hne, hdec⟩
    rw [Ne, ← BitVec.toNat_inj] at hne
    rw [dec_eq, dec_eq] at hdec
    omega
  · intro hlt
    have hnext : (BitVec.ofNat 8 (b.toNat + 6)).toNat = b.toNat + 6 := Nat.mod_eq_of_lt (by omega)
    refine ⟨BitVec.ofNat 8 (b.toNat + 6), ?_, ?_⟩
    · rw [Ne, ← BitVec.toNat_inj, hnext]
      omega
    · rw [dec_eq, dec_eq, hnext]
      omega

/-! ### `Enc` in contract (R102) -/

theorem enc_toNat {n : Nat} (h : n ≤ 99) : (enc (n : Int)).toNat = n / 10 * 16 + n % 10 := by
  rw [enc_inRange n h, BitVec.toNat_ofNat]
  omega

theorem validBcd_enc {n : Nat} (h : n ≤ 99) : validBcd (enc (n : Int)) = true := by
  rw [validBcd_iff_toNat, enc_toNat h]
  omega

/-- The two digits do not overlap, so that the sum of R102 puts them side by side (R109). -/
theorem enc_eq_append {n : Nat} (h : n ≤ 99) :
    enc (n : Int) = (BitVec.ofNat 4 (n / 10) ++ BitVec.ofNat 4 (n % 10) : BitVec 8) := by
  have hlow : (BitVec.ofNat 4 (n % 10)).toNat < 2 ^ 4 := BitVec.isLt _
  apply BitVec.eq_of_toNat_eq
  rw [enc_toNat h, BitVec.toNat_append, ← Nat.shiftLeft_add_eq_or_of_lt hlow, Nat.shiftLeft_eq, BitVec.toNat_ofNat,
    BitVec.toNat_ofNat]
  omega

theorem enc_lt_enc {v u : Nat} (hlt : v < u) (hu : u ≤ 99) : (enc (v : Int)).toNat < (enc (u : Int)).toNat := by
  rw [enc_toNat (by omega), enc_toNat hu]
  omega

/-! ### The round trips (R106, R107) -/

theorem enc_dec_of_validBcd {b : Byte} (h : validBcd b = true) : enc (dec b : Int) = b := by
  apply BitVec.eq_of_toNat_eq
  rw [enc_toNat (dec_le_of_validBcd h), dec_eq]
  rw [validBcd_iff_toNat] at h
  omega

theorem dec_enc {n : Nat} (h : n ≤ 99) : dec (enc (n : Int)) = n := by
  rw [enc_inRange n h, dec_ofDigits (by omega) (by omega)]
  omega

/-! ### The obligations -/

/-- Settles O20: the response's value is `Dec`, by R101's formula. -/
theorem bcd2decDecodesEveryByte : Obligations.Bcd2decDecodesEveryByte := by
  intro s b
  rw [← dec_eq]
  exact ⟨rfl, dec_le b⟩

/-- Settles O21: the response's value is the byte of `Enc`, inside its contract and outside. -/
theorem dec2bcdEncodesOrIsOpen : Obligations.Dec2bcdEncodesOrIsOpen := by
  intro s v
  have hexec : exec (.dec2bcd v) s = .next (s.respond (BitVec.ofNat 16 (enc (v.toNat : Int)).toNat)) := by
    rw [← zext16_eq]
    rfl
  refine ⟨fun hin => ?_, fun hout => ?_⟩
  · rw [hexec, enc_toNat hin]
    rfl
  · rw [hexec, enc_outOfRange (by omega)]
    rfl

/-- Settles O30: a valid BCD byte is the encoding of the number it decodes to. -/
theorem encodedImage : Obligations.EncodedImage := by
  refine ⟨fun v => enc_eq_append, fun v u => enc_lt_enc, fun b => ⟨fun h => ?_, ?_⟩⟩
  · exact ⟨dec b, dec_le_of_validBcd h, enc_dec_of_validBcd h⟩
  · rintro ⟨v, hv, rfl⟩
    exact validBcd_enc hv

/-- Settles O31: the encoding of a number is valid BCD, and a byte with a low nibble of 10 or more is not. -/
theorem roundTripFailsOutsideBcd : Obligations.RoundTripFailsOutsideBcd := by
  refine ⟨fun b hlow hdec => ?_, fun b hdec => enc_outOfRange (by omega), fun b hlow => ?_⟩
  · have hvalid : validBcd (enc (dec b : Int)) = true := validBcd_enc hdec
    refine ⟨hvalid, fun hback => ?_⟩
    obtain ⟨-, hunits⟩ := (validBcd_iff b).mp (hback ▸ hvalid)
    omega
  · exact exists_ne_dec_eq_iff (lowNibble_toNat b ▸ hlow)

/-- Settles O27: two nibbles of at most 9 are what makes a byte valid BCD. -/
theorem roundTripFromByte : Obligations.RoundTripFromByte :=
  fun b htens hunits => enc_dec_of_validBcd ((validBcd_iff b).mpr ⟨htens, hunits⟩)

/-- Settles O28: the digits that `Enc` writes are those that `Dec` reads. -/
theorem roundTripFromNumber : Obligations.RoundTripFromNumber := fun _ => dec_enc

/-- Settles O29: on the valid BCD bytes `Enc` is the inverse of `Dec`, so that each number is reached, and once. -/
theorem decodedImage : Obligations.DecodedImage := by
  refine ⟨dec_le, fun _ => exists_dec_eq, fun _ => dec_le_of_validBcd, fun n hn => ?_, fun b c hb hc heq => ?_⟩
  · exact ⟨enc (n : Int), validBcd_enc hn, dec_enc hn⟩
  · calc b = enc (dec b : Int) := (enc_dec_of_validBcd hb).symm
      _ = enc (dec c : Int) := by rw [heq]
      _ = c := enc_dec_of_validBcd hc

end Sys2Proof.Machine

/-! SUPPORT. The rules of the getter family's proofs: a getter is one read of one byte, decoded and clamped, and its value
lies where its clamp function does. The theorems that settle the getter family's obligations are at the end. -/

namespace Sys2Proof.Machine

/-! ### The value of a getter (R8, R66, R120) -/

theorem natValue_toNat {n : Nat} (h : n < 2 ^ 16) : (natValue n).toNat = n :=
  Nat.mod_eq_of_lt h

theorem clamp_range {lo hi : Nat} (h : lo ≤ hi) (d : Nat) : lo ≤ clamp d lo hi ∧ clamp d lo hi ≤ hi :=
  ⟨le_max_left _ _, max_le h (min_le_right _ _)⟩

theorem clampYear_range (d : Nat) : 2000 ≤ clampYear d ∧ clampYear d ≤ 2099 :=
  ⟨Nat.le_add_left _ _, Nat.add_le_add_right (min_le_right d 99) 2000⟩

/-- A bus command whose response is `OK` was answered `Ok`, and its value is made of the data that came: a failure has
another status, and an unanswered request has no response. -/
theorem exists_value_eq_busValue {i : Instr} {s t : State} {q : Request} {v : Value}
    (hbus : busRequest s.regMap i = some q) (hexec : exec i s = .next t)
    (hok : t.responses = rspWord 0x00 0x00 v :: s.responses) : ∃ data, v = busValue i data := by
  obtain rfl := eq_concluded_of_exec hbus hexec
  cases hr : s.replyTo q with
  | ok data =>
    rw [hr] at hok
    have hword : rspOk (busValue i data) = rspWord 0x00 0x00 v := (List.cons.inj hok).1
    have hvalue := congrArg rspValue hword
    rw [rspOk, rspValue_rspWord, rspValue_rspWord] at hvalue
    exact ⟨data, hvalue.symm⟩
  | fail e =>
    rw [hr] at hok
    have hword : (Failure.transportFailure e).response = rspWord 0x00 0x00 v := (List.cons.inj hok).1
    refine absurd ?_ (rspStatus_failure_ne_ok (.transportFailure e))
    rw [hword, rspStatus_rspWord]
  | noAnswer =>
    rw [hr] at hok
    exact absurd hok.symm (List.cons_ne_self _ _)

/-! ### A getter of the common scheme (R120) -/

section Getter

variable {i : Instr} {s : State} {ptr : Byte} {clampFn : Nat → Nat}

/-- A getter reads its one register, and its value is the clamped number of the whole byte. -/
theorem readsOneByte_of_getter (hbus : busRequest s.regMap i = some (.tWriteRead 0x68 ptr 1))
    (hclamp : ∀ data, busValue i data = natValue (clampFn (dec (readByte data))))
    (hsend : s.sendable (.tWriteRead 0x68 ptr 1) = true) :
    Claims.ReadsOneByte i s ptr (fun b => BitVec.ofNat 16 (clampFn (Claims.decoded b))) := by
  refine readsOneByte_of_busRequest hbus (fun b => ?_) hsend
  calc busValue i [b] = natValue (clampFn (dec b)) := hclamp [b]
    _ = BitVec.ofNat 16 (clampFn (Claims.decoded b)) := by rw [dec_eq, natValue, Claims.decoded]

/-- A getter answered `OK` gives a value in every range that holds its clamp function's numbers (R128). -/
theorem value_range_of_getter {t : State} {v : Value} {q : Request} {lo hi : Nat}
    (hbus : busRequest s.regMap i = some q)
    (hclamp : ∀ data, busValue i data = natValue (clampFn (dec (readByte data))))
    (hrange : ∀ d, lo ≤ clampFn d ∧ clampFn d ≤ hi) (hhi : hi < 2 ^ 16)
    (hok : t.responses = rspWord 0x00 0x00 v :: s.responses) (hexec : exec i s = .next t) :
    lo ≤ v.toNat ∧ v.toNat ≤ hi := by
  obtain ⟨data, rfl⟩ := exists_value_eq_busValue hbus hexec hok
  have hd := hrange (dec (readByte data))
  rw [hclamp, natValue_toNat (hd.2.trans_lt hhi)]
  exact hd

/-- The same for a clamp from above only (R130). -/
theorem value_le_of_getter {t : State} {v : Value} {q : Request} {hi : Nat}
    (hbus : busRequest s.regMap i = some q)
    (hclamp : ∀ data, busValue i data = natValue (min (dec (readByte data)) hi)) (hhi : hi < 2 ^ 16)
    (hok : t.responses = rspWord 0x00 0x00 v :: s.responses) (hexec : exec i s = .next t) : v.toNat ≤ hi :=
  (value_range_of_getter (clampFn := (min · hi)) hbus hclamp (fun d => ⟨Nat.zero_le _, min_le_right d hi⟩)
    hhi hok hexec).2

end Getter

/-! ### The obligations -/

/-- Settles O22: the three getters of the time, each by its clamp function. -/
theorem timeGettersClampFromAbove : Obligations.TimeGettersClampFromAbove := fun _ =>
  ⟨readsOneByte_of_getter (clampFn := clampSecond) rfl fun _ => rfl,
   readsOneByte_of_getter (clampFn := clampMinute) rfl fun _ => rfl,
   readsOneByte_of_getter (clampFn := clampHour) rfl fun _ => rfl⟩

/-- Settles O23: the three getters of the date, each by its clamp function. -/
theorem dateGettersClampOnBothSides : Obligations.DateGettersClampOnBothSides := fun _ =>
  ⟨readsOneByte_of_getter (clampFn := clampDay) rfl fun _ => rfl,
   readsOneByte_of_getter (clampFn := clampDate) rfl fun _ => rfl,
   readsOneByte_of_getter (clampFn := clampMonth) rfl fun _ => rfl⟩

/-- Settles O24: the century is part of the year's clamp function. -/
theorem yearGetterAddsTheCentury : Obligations.YearGetterAddsTheCentury := fun _ =>
  readsOneByte_of_getter (clampFn := clampYear) rfl fun _ => rfl

/-- Settles O32: the range of each getter's value is that of its clamp function, whatever byte came. -/
theorem clampLaws : Obligations.ClampLaws := by
  intro s t v hok
  refine ⟨?month, ?date, ?day, ?hour, ?minute, ?second, ?year⟩
  case month => exact value_range_of_getter rfl (fun _ => rfl) (clamp_range (by decide)) (by decide) hok
  case date => exact value_range_of_getter rfl (fun _ => rfl) (clamp_range (by decide)) (by decide) hok
  case day => exact value_range_of_getter rfl (fun _ => rfl) (clamp_range (by decide)) (by decide) hok
  case hour => exact value_le_of_getter rfl (fun _ => rfl) (by decide) hok
  case minute => exact value_le_of_getter rfl (fun _ => rfl) (by decide) hok
  case second => exact value_le_of_getter rfl (fun _ => rfl) (by decide) hok
  case year => exact value_range_of_getter rfl (fun _ => rfl) clampYear_range (by decide) hok

end Sys2Proof.Machine

/-! SUPPORT. The rules of the setter family's proofs: what the operand contract and a well-formed register map say, the
digits that SETDT sends in contract, and what a getter makes of a time register of RefDev. The theorems that settle the
setter family's obligations are at the end. -/

namespace Sys2Proof.Machine

/-! ### The operand contract and the register map (R13, R23, R185) -/

theorem inContract_setdt_iff {year : BitVec 16} {month date weekday hour minute second : Byte} :
    Instr.inContract (.setdt year month date weekday hour minute second) = true ↔
      (2000 ≤ year.toNat ∧ year.toNat ≤ 2099) ∧ (1 ≤ month.toNat ∧ month.toNat ≤ 12) ∧
      (1 ≤ date.toNat ∧ date.toNat ≤ 31) ∧ (1 ≤ weekday.toNat ∧ weekday.toNat ≤ 7) ∧
      hour.toNat ≤ 23 ∧ minute.toNat ≤ 59 ∧ second.toNat ≤ 59 := by
  simp only [Instr.inContract, Bool.and_eq_true, decide_eq_true_eq, and_assoc]

/-- The time registers are consecutive, and the last of them lies within RefDev's map. -/
theorem RegMap.timeRegisters_of_wellFormed {m : RegMap} (h : m.WellFormed) :
    m.minute.toNat = m.second.toNat + 1 ∧ m.hour.toNat = m.second.toNat + 2 ∧ m.day.toNat = m.second.toNat + 3 ∧
    m.date.toNat = m.second.toNat + 4 ∧ m.month.toNat = m.second.toNat + 5 ∧ m.year.toNat = m.second.toNat + 6 ∧
    m.second.toNat + 6 ≤ 0x12 := by
  simp only [RegMap.WellFormed, RegMap.wellFormed, Bool.and_eq_true, decide_eq_true_eq, List.all_eq_true] at h
  obtain ⟨⟨⟨⟨⟨⟨hmapped, hminute⟩, hhour⟩, hday⟩, hdate⟩, hmonth⟩, hyear⟩ := h
  have hlast : m.year.toNat ≤ 0x12 := hmapped m.year (by simp [RegMap.addrs])
  exact ⟨hminute, hhour, hday, hdate, hmonth, hyear, hyear ▸ hlast⟩

/-! ### The bytes of SETDT in contract (R140) -/

theorem enc_eq_digits {n : Nat} (h : n ≤ 99) : enc (n : Int) = Claims.digits n :=
  enc_inRange n h

/-- From 2000 on the integer year offset is the natural one. -/
theorem enc_yearOffset {y : Nat} (h : 2000 ≤ y) : enc ((y : Int) - 2000) = enc ((y - 2000 : Nat) : Int) :=
  congrArg enc (Int.ofNat_sub h).symm

theorem busRequest_setdt_inContract {year : BitVec 16} {month date weekday hour minute second : Byte}
    (h : Instr.inContract (.setdt year month date weekday hour minute second) = true) (m : RegMap) :
    busRequest m (.setdt year month date weekday hour minute second) = some (.tWrite 0x68
      [m.second, Claims.digits second.toNat, Claims.digits minute.toNat, Claims.digits hour.toNat,
       Claims.digits weekday.toNat, Claims.digits date.toNat, Claims.digits month.toNat,
       Claims.digits (year.toNat - 2000)]) := by
  obtain ⟨⟨hylo, hyhi⟩, ⟨-, hmonth⟩, ⟨-, hdate⟩, ⟨-, hday⟩, hhour, hminute, hsecond⟩ := inContract_setdt_iff.mp h
  rw [busRequest, enc_yearOffset hylo, enc_eq_digits (by omega : second.toNat ≤ 99),
    enc_eq_digits (by omega : minute.toNat ≤ 99), enc_eq_digits (by omega : hour.toNat ≤ 99),
    enc_eq_digits (by omega : weekday.toNat ≤ 99), enc_eq_digits (by omega : date.toNat ≤ 99),
    enc_eq_digits (by omega : month.toNat ≤ 99), enc_eq_digits (by omega : year.toNat - 2000 ≤ 99)]

/-! ### A getter on RefDev's time registers (R120, R143) -/

/-- RefDev answers by itself, and its time registers, from `REG_SECOND` on, hold `data`. -/
structure State.TimeStored (t : State) (data : List Byte) : Prop where
  device : t.device = .refDev
  script : t.script = []
  mapWf  : t.regMap.WellFormed
  bytes  : ∀ k < 7, Memory.read t.mem (t.regMap.second.toNat + k) = data.getD k 0

/-- A getter whose register holds an encoded number returns that number, clamped. -/
theorem State.TimeStored.getter {t : State} {data : List Byte} {i : Instr} {reg : Byte} {clampFn : Nat → Nat}
    {k n : Nat} {v : Value} (h : t.TimeStored data)
    (hbus : busRequest t.regMap i = some (.tWriteRead 0x68 reg 1))
    (hclamp : ∀ d, busValue i d = natValue (clampFn (dec (readByte d))))
    (hk : k < 7) (hreg : reg.toNat = t.regMap.second.toNat + k)
    (hbyte : data.getD k 0 = enc (n : Int)) (hn : n ≤ 99) (hv : natValue (clampFn n) = v) :
    ∃ u, exec i t = .next u ∧ u.responses = rspWord 0x00 0x00 v :: t.responses := by
  obtain ⟨-, -, -, -, -, -, hlast⟩ := RegMap.timeRegisters_of_wellFormed h.mapWf
  have hread : RefDev.accepts (.tWriteRead 0x68 reg 1) = true := (RefDev.accepts_read_iff reg).mpr (by omega)
  refine ⟨_, exec_refDev hbus h.device h.script hread, ?_⟩
  have hvalue : busValue i [Memory.read t.mem reg.toNat] = v := by
    calc busValue i [Memory.read t.mem reg.toNat]
        = natValue (clampFn (dec (Memory.read t.mem reg.toNat))) := hclamp _
      _ = natValue (clampFn n) := by rw [hreg, h.bytes k hk, hbyte, dec_enc hn]
      _ = v := hv
  exact congrArg (fun w => rspWord 0x00 0x00 w :: t.responses) hvalue

theorem clamp_eq_self {lo hi d : Nat} (hlo : lo ≤ d) (hhi : d ≤ hi) : clamp d lo hi = d := by
  rw [clamp, min_eq_left hhi, max_eq_right hlo]

/-- GETYEAR's clamp function takes the offset of a year in contract back to the year. -/
theorem clampYear_offset {year : BitVec 16} (hlo : 2000 ≤ year.toNat) (hhi : year.toNat ≤ 2099) :
    natValue (clampYear (year.toNat - 2000)) = year := by
  have hyear : clampYear (year.toNat - 2000) = year.toNat := by
    rw [clampYear]
    omega
  rw [hyear, natValue, BitVec.ofNat_toNat, BitVec.setWidth_eq]

/-! ### SETDT on RefDev (R140, R143) -/

/-- Under RefDev answering by itself SETDT completes, in contract or not, and its burst from `REG_SECOND` fills the seven
time registers. -/
theorem exec_setdt_refDev {s : State} (year : BitVec 16) (month date weekday hour minute second : Byte)
    (hdev : s.device = .refDev) (hscript : s.script = []) (hwf : Memory.wf s.mem = true) (hmap : s.regMap.WellFormed) :
    ∃ t, exec (.setdt year month date weekday hour minute second) s = .next t ∧
      t.responses = rspWord 0x00 0x00 0x0000 :: s.responses ∧
      t.TimeStored (setdtBytes year month date weekday hour minute second) := by
  obtain ⟨-, -, -, -, -, -, hlast⟩ := RegMap.timeRegisters_of_wellFormed hmap
  have hq : RefDev.accepts (.tWrite 0x68 (s.regMap.second :: setdtBytes year month date weekday hour minute second)) =
      true := (RefDev.accepts_write_iff _ _ _).mpr (Nat.succ_le_succ hlast)
  have hburst : Claims.WritesInOneRequest (.setdt year month date weekday hour minute second) s s.regMap.second
      (setdtBytes year month date weekday hour minute second) :=
    writesInOneRequest_of_busRequest rfl rfl hwf ((State.sendable_refDev hdev _).trans hq)
  obtain ⟨t, hexec, ⟨⟨hregs, -, -, hdevice⟩, -, -, hresp, -, -, htail⟩, hbytes⟩ :=
    hburst.1 (State.replyTo_refDev hdev hscript hq)
  refine ⟨t, hexec, hresp, hdevice.trans hdev, by rw [htail, hscript, List.tail_nil], hregs ▸ hmap, fun k hk => ?_⟩
  rw [hregs, hbytes, if_pos ⟨hdev, Nat.le_add_right _ k, Nat.add_lt_add_left hk _⟩, Nat.add_sub_cancel_left]

/-! ### The obligations -/

/-- Settles O25: SETDT is the write of its seven bytes. -/
theorem setdtSendsOneBurst : Obligations.SetdtSendsOneBurst :=
  fun _ _ _ _ _ _ _ _ hwf hsend => writesInOneRequest_of_busRequest rfl rfl hwf hsend

/-- Settles O26: in contract each byte of SETDT's request is the two digits, and its exchange is the one made. -/
theorem setdtInContractSendsDigits : Obligations.SetdtInContractSendsDigits := by
  intro s year month date weekday hour minute second q hin hq
  have hbus : busRequest s.regMap (.setdt year month date weekday hour minute second) = some q :=
    hq ▸ busRequest_setdt_inContract hin s.regMap
  refine ⟨fun hsend => ⟨_, exec_eq_concluded hbus hsend rfl⟩, fun t ht => ?_⟩
  rw [eq_concluded_of_exec hbus ht]
  exact State.concluded_history s _ q _ _

/-- Settles O44: the burst fills the seven time registers, and in contract each getter's decoding and clamp undo the
encoding of its field. -/
theorem setTimeReadsBack : Obligations.SetTimeReadsBack := by
  intro s year month date weekday hour minute second hdev hscript hwf hmap hin
  obtain ⟨⟨hylo, hyhi⟩, hmonth, hdate, hday, hhour, hminute, hsecond⟩ := inContract_setdt_iff.mp hin
  obtain ⟨t, hexec, hresp, stored⟩ :=
    exec_setdt_refDev year month date weekday hour minute second hdev hscript hwf hmap
  obtain ⟨rminute, rhour, rday, rdate, rmonth, ryear, -⟩ := RegMap.timeRegisters_of_wellFormed stored.mapWf
  refine ⟨t, hexec, hresp, ?year, ?month, ?date, ?day, ?hour, ?minute, ?second⟩
  case year =>
    exact stored.getter (clampFn := clampYear) rfl (fun _ => rfl) (by decide) ryear (enc_yearOffset hylo) (by omega)
      (clampYear_offset hylo hyhi)
  case month =>
    exact stored.getter (clampFn := clampMonth) rfl (fun _ => rfl) (by decide) rmonth rfl (by omega)
      (congrArg natValue (clamp_eq_self hmonth.1 hmonth.2))
  case date =>
    exact stored.getter (clampFn := clampDate) rfl (fun _ => rfl) (by decide) rdate rfl (by omega)
      (congrArg natValue (clamp_eq_self hdate.1 hdate.2))
  case day =>
    exact stored.getter (clampFn := clampDay) rfl (fun _ => rfl) (by decide) rday rfl (by omega)
      (congrArg natValue (clamp_eq_self hday.1 hday.2))
  case hour =>
    exact stored.getter (clampFn := clampHour) rfl (fun _ => rfl) (by decide) rhour rfl (by omega)
      (congrArg natValue (min_eq_left hhour))
  case minute =>
    exact stored.getter (clampFn := clampMinute) rfl (fun _ => rfl) (by decide) rminute rfl (by omega)
      (congrArg natValue (min_eq_left hminute))
  case second =>
    exact stored.getter (clampFn := clampSecond) (k := 0) rfl (fun _ => rfl) (by decide) rfl rfl (by omega)
      (congrArg natValue (min_eq_left hsecond))

end Sys2Proof.Machine

/-! SUPPORT. The rules of the exception family's proofs: what a step does to a block that cannot take a command, and the
state that a response leaves behind. The theorems that settle the obligations are at the end. -/

namespace Sys2Proof.Machine

/-! ### The steps that run no command (R160, R164, R181) -/

/-- A reset asked for is taken in every state (R181). -/
theorem step_eq_resetBlock {s : State} (hreset : s.resetLine = true) : step s = .next s.resetBlock :=
  if_pos hreset

/-- While a request is unanswered the block has no step (R164, R188). -/
theorem step_eq_transportSilent {s : State} {c : InFlight} (hreset : s.resetLine = false)
    (hbusy : s.inProgress = some c) : step s = .fault .transportSilent := by
  simp [step, hreset, hbusy]

/-- A run that a failure has ended goes no further (R160). -/
theorem step_eq_runFailed {s : State} {f : Failure} (hreset : s.resetLine = false) (hidle : s.inProgress = none)
    (hstop : s.stopped = some f) : step s = .fault (.runFailed f) := by
  simp [step, hreset, hidle, hstop]

/-! ### The state after a response (R60, R150) -/

/-- A step that gives a response leaves the block idle: only a command that gives none stays in progress. -/
theorem step_idle_of_response {s t : State} {r : RspWord} (hs : s.Ready) (ht : step s = .next t)
    (hr : t.responses = r :: s.responses) : t.resetLine = false ∧ t.inProgress = none := by
  obtain ⟨hreset, hidle, -⟩ := hs
  rcases step_cases ht with ⟨-, rfl⟩ | ⟨-, ⟨-, rfl⟩ | ⟨w, e, -, -, rfl⟩ | ⟨w, i, -, -, hexec⟩⟩
  · exact ⟨rfl, rfl⟩
  · exact ⟨hreset, hidle⟩
  · exact ⟨hreset, hidle⟩
  · obtain ⟨-, -, hline, -⟩ := exec_untouched hexec
    refine ⟨hline.trans hreset, ?_⟩
    rcases oneResponsePerCommand i s t hexec with ⟨-, -, hkept⟩ | ⟨q, -, -, hnone, -⟩
    · exact hkept.trans hidle
    · exact absurd (hnone.symm.trans hr).symm (List.cons_ne_self r s.responses)

/-! ### The obligations -/

/-- Settles O13: a response that is not `OK` is a failure's, and leaves the block idle with the run ended by it. -/
theorem runEndsAtFirstFailure : Obligations.RunEndsAtFirstFailure := by
  intro s t r hs ht hr hne
  obtain ⟨hreset, hidle⟩ := step_idle_of_response hs ht hr
  rcases step_answered ht with ⟨v, hv, -, -⟩ | ⟨f, hf, -, hstop⟩ | hsame
  · obtain rfl : r = rspOk v := (List.cons.inj (hr.symm.trans hv)).1
    exact absurd (rspStatus_rspOk v) hne
  · exact ⟨f, (List.cons.inj (hr.symm.trans hf)).1, step_eq_runFailed hreset hidle hstop⟩
  · exact absurd (hsame.symm.trans hr).symm (List.cons_ne_self r s.responses)

/-- Settles O14: the unanswered command is held, which stops every step but a reset. -/
theorem unansweredRequestHoldsTheBlock : Obligations.UnansweredRequestHoldsTheBlock := by
  intro s w i q hs hw hd hbus hsend hsilent
  have hstep : step s = .next ((s.exchanged q .noAnswer).hold i q) :=
    (step_eq_exec hs hw hd).trans (exec_eq_concluded hbus hsend hsilent)
  obtain ⟨hreset, -, -⟩ := hs
  exact ⟨_, hstep, rfl, rfl, rfl, rfl, ⟨rfl, rfl, rfl, rfl⟩, step_eq_transportSilent hreset rfl,
    _, step_eq_resetBlock rfl, rfl⟩

/-- Settles O35: the failed request concludes its command; and of all the ways a command ends only this has the status
`FAIL`. -/
theorem transportFailurePropagates : Obligations.TransportFailurePropagates := by
  refine ⟨fun i s q e hbus hsend hfail =>
    ⟨_, exec_eq_concluded hbus hsend hfail, State.concluded_fail_failedWith s i q _ e⟩, fun i s t r h hr hstatus => ?_⟩
  have hgiven : ∀ r', t.responses = r' :: s.responses → rspStatus r' = 0x01 := fun r' hr' => by
    rwa [(List.cons.inj (hr'.symm.trans hr)).1]
  rcases exec_cases h with ⟨v, -, rfl⟩ | ⟨-, -, rfl⟩ | ⟨q, hq, -, ⟨data, v, -, rfl⟩ | ⟨e, hfail, rfl⟩ | ⟨-, rfl⟩⟩
  · exact absurd (hgiven (rspOk v) rfl) (by simp)
  · exact absurd (hgiven Failure.illegalCommand.response rfl) (by decide)
  · exact absurd (hgiven (rspOk v) rfl) (by simp)
  · exact ⟨q, e, hq, hfail, (List.cons.inj hr).1.symm⟩
  · exact absurd hr.symm (List.cons_ne_self r s.responses)

/-- Settles O37: a well-formed command without a request responds `OK` at once, and one with a request when its answer is
`Ok`. -/
theorem nothingElseRaises : Obligations.NothingElseRaises := by
  intro i s hwf hanswered
  cases hbus : busRequest s.regMap i with
  | none =>
    rcases exec_nobus hbus with ⟨v, hexec⟩ | ⟨hill, -⟩
    · exact ⟨_, v, hexec, rfl⟩
    · exact absurd hwf hill
  | some q =>
    obtain ⟨hsend, data, hok⟩ := hanswered q hbus
    exact ⟨_, busValue i data, exec_eq_concluded hbus hsend hok, rfl⟩

end Sys2Proof.Machine

/-! SUPPORT. The rules of the reset family's proofs: which bytes of RefDev a reset leaves. The theorems that settle the
obligations are at the end. -/

namespace Sys2Proof.Machine

/-! ### RefDev's bytes after a reset (R181) -/

/-- Free bytes put at `n` registers from `a` change no byte outside them. -/
theorem Memory.read_writeBytes_lostBytes_of_outside {m : Memory} (hwf : Memory.wf m = true) (h : List Exchange)
    {a b n : Nat} (hb : ¬ (a ≤ b ∧ b < a + n)) :
    Memory.read (Memory.writeBytes m a (lostBytes h a n)) b = Memory.read m b := by
  rw [Memory.read_writeBytes hwf, lostBytes_length, if_neg hb]

theorem RefDev.read_abandon_of_not_addresses {m : Memory} (hwf : Memory.wf m = true) (h : List Exchange) {q : Request}
    {a : Nat} (ha : ¬ Claims.addresses q a) : Memory.read (RefDev.abandon h m q) a = Memory.read m a := by
  cases q with
  | tWrite addr bytes =>
    cases bytes with
    | nil => rfl
    | cons ptr data => exact Memory.read_writeBytes_lostBytes_of_outside hwf h ha
  | tWriteRead addr ptr n => exact Memory.read_writeBytes_lostBytes_of_outside hwf h ha

theorem State.read_abandoned_of_not_addresses {s : State} (hwf : Memory.wf s.mem = true) {q : Request} {a : Nat}
    (ha : ¬ Claims.addresses q a) : Memory.read (s.abandoned q).mem a = Memory.read s.mem a := by
  rw [State.abandoned_mem]
  split
  · exact RefDev.read_abandon_of_not_addresses hwf s.history ha
  · rfl

/-! ### The obligations -/

/-- Settles O15: the step is the reset of the block, which writes only what the abandoned request addressed. -/
theorem resetAbandonsTheCommand : Obligations.ResetAbandonsTheCommand := by
  intro s hreset hwf
  refine ⟨s.resetBlock, step_eq_resetBlock hreset, rfl, rfl, rfl, rfl, rfl, rfl, rfl, rfl, rfl, rfl, ?idle, ?busy⟩
  case idle =>
    intro hidle a
    rw [State.resetBlock_mem_idle hidle]
  case busy =>
    intro c hbusy a ha
    rw [State.resetBlock_mem_busy hbusy]
    exact State.read_abandoned_of_not_addresses hwf ha

/-- Settles O12: a ready state lacks only the index's end to be final, and at the end no word is presented. -/
theorem finalRunStaysAsItIs : Obligations.FinalRunStaysAsItIs := by
  intro s hs
  have hfinal : s.Final ↔ s.seq = s.program.length := by
    obtain ⟨-, hidle, hrun⟩ := hs
    exact and_iff_left ⟨hidle, hrun⟩
  refine ⟨hfinal, fun hend => step_at_end hs ?_⟩
  exact List.getElem?_eq_none (hfinal.mp hend).ge

end Sys2Proof.Machine
